-- ==== Sys2Proof/Word.lean ====
section
/-! DEFINITION. The vectors of takum_core: the buses, the request word, the binary64 pattern, and the closed set of widths. -/

namespace Sys2Proof

/-- A binary64 pattern, 64 bits (`REAL_FORMAT`, 00_scope.md R6; layout in 30_encoding.md R38). -/
abbrev F64 := BitVec 64

/-- The data bus, 64 bits (`DATA_W`, 00_scope.md R6). -/
abbrev Data := BitVec 64

/-- The `bits` operand, 7 bits (`BITS_PORT_W`, 00_scope.md R6). -/
abbrev BitsOperand := BitVec 7

/-- The request word `REQ[72:0]` (30_encoding.md R41). -/
abbrev Request := BitVec 73

/-- A regime index, 0 to 7 (`REGIME_MAX`, 00_scope.md R6; also the index of the bias ROM, 20_memory.md R29). -/
abbrev Regime := Fin 8

/-- The closed enumeration `WIDTHS` of supported word widths (00_scope.md R6, 40_config_resolver.md R55). -/
inductive Width where
  | w8
  | w16
  | w32
  | w64
deriving DecidableEq, Repr

end Sys2Proof
end

