-- ==== Sys2Proof/Syntax.lean ====
section
/-! DEFINITION. The four operations of the request port, one constructor for each row of spec/opcode_table.json. -/

namespace Sys2Proof

/-- A request, taken apart. Every constructor keeps both operand fields of the word (30_encoding.md R41), the ignored one
too (R42), so that no bit of a request is lost. -/
inductive Instr where
  /-- RESOLVE, `op = 00`: the configuration record of width `bits`; `data` is ignored (40_config_resolver.md R50). -/
  | resolve (bits : BitsOperand) (data : Data)
  /-- BIAS, `op = 01`: the bias ROM entry of index `data`; `bits` is ignored (41_bias_rom.md R57). -/
  | bias (bits : BitsOperand) (data : Data)
  /-- ENCODE, `op = 10`: the word of width `bits` of the binary64 value `data` (43_encoder.md R74). -/
  | encode (bits : BitsOperand) (data : Data)
  /-- DECODE, `op = 11`: the value of the word of width `bits` in the low bits of `data` (44_decoder.md R90). -/
  | decode (bits : BitsOperand) (data : Data)
deriving DecidableEq, Repr

end Sys2Proof
end

