-- ==== Sys2Proof/WellFormed.lean ====
section
/-! DEFINITION. The checks on a request's operands: which requests 30_encoding.md R44 calls legal. -/

namespace Sys2Proof

/-- The width check: `bits` is 8, 16, 32 or 64 (30_encoding.md R44, R45(a)). -/
def legalWidth (bits : BitsOperand) : Bool :=
  bits == 8 || bits == 16 || bits == 32 || bits == 64

/-- The index check: `uint(data) <= 7` (30_encoding.md R44, R45(b)). -/
def legalIndex (data : Data) : Bool :=
  decide (data.toNat ≤ 7)

/-- A request whose operands are legal. Every `data` is legal for RESOLVE, ENCODE and DECODE, every `bits` for BIAS
(30_encoding.md R42, R45(e)). An ill-formed request is still a request: it decodes, and it is answered with an error status
(60_exceptions.md R101, R102). -/
def Instr.wellFormed : Instr → Bool
  | .resolve bits _ => legalWidth bits
  | .bias _ data => legalIndex data
  | .encode bits _ => legalWidth bits
  | .decode bits _ => legalWidth bits

end Sys2Proof
end

