-- ==== Sys2Proof/Decode.lean ====
section
/-! DEFINITION. The request word: taking it apart, and putting it together (30_encoding.md R41, R42). -/

namespace Sys2Proof

/-- The field `op`, bits 72:71 (30_encoding.md R41). -/
def Request.opField (q : Request) : BitVec 2 := q.extractLsb' 71 2

/-- The field `bits`, bits 70:64 (30_encoding.md R41). -/
def Request.bitsField (q : Request) : BitsOperand := q.extractLsb' 64 7

/-- The field `data`, bits 63:0 (30_encoding.md R41). -/
def Request.dataField (q : Request) : Data := q.extractLsb' 0 64

/-- The operation a request asks for (30_encoding.md R42). Total: all four values of `op` are assigned. -/
def decodeRequest (q : Request) : Instr :=
  match (Request.opField q).toNat with
  | 0 => .resolve (Request.bitsField q) (Request.dataField q)
  | 1 => .bias (Request.bitsField q) (Request.dataField q)
  | 2 => .encode (Request.bitsField q) (Request.dataField q)
  | _ => .decode (Request.bitsField q) (Request.dataField q)

/-- Why a number is no request word. -/
inductive DecodeReject where
  /-- A bit above 72 is set: the request port has 73 wires (30_encoding.md R41). -/
  | widerThanRequest
deriving DecidableEq, Repr

/-- The decoder on any number, as 95_test_vectors.md writes requests: a number that does not fit the 73 wires of the port
is rejected by name, every other number is a request. -/
def decode (w : Nat) : Except DecodeReject Instr :=
  if w < 2 ^ 73 then .ok (decodeRequest (BitVec.ofNat 73 w)) else .error .widerThanRequest

/-- The operation code of an instruction (30_encoding.md R42). -/
def Instr.opCode : Instr → BitVec 2
  | .resolve _ _ => 0
  | .bias _ _ => 1
  | .encode _ _ => 2
  | .decode _ _ => 3

/-- The `bits` operand of an instruction. -/
def Instr.bitsOperand : Instr → BitsOperand
  | .resolve bits _ => bits
  | .bias bits _ => bits
  | .encode bits _ => bits
  | .decode bits _ => bits

/-- The `data` operand of an instruction. -/
def Instr.dataOperand : Instr → Data
  | .resolve _ data => data
  | .bias _ data => data
  | .encode _ data => data
  | .decode _ data => data

/-- The request word of an instruction: `(op << 71) | (bits << 64) | data` (30_encoding.md R41). -/
def encodeRequest (i : Instr) : Request :=
  i.opCode ++ i.bitsOperand ++ i.dataOperand

/-- The instruction the decoder reads from a row of spec/opcode_table.json. The table's 73 bits fill ten bytes; the padding
above bit 72 is on no wire of the port and is dropped here (DESIGN CHOICE, safe: log 9). -/
def decodeTableWord (nbits w : Nat) : Option Instr :=
  match decode (w % 2 ^ nbits % 2 ^ 73) with
  | .ok i => some i
  | .error _ => none

end Sys2Proof
end

