-- ==== Sys2Proof/Machine/Tables.lean ====
section
/-! DEFINITION. The two constant tables of takum_core: their form and their contents (10_state.md R12, R17). -/

namespace Sys2Proof

/-- The number of bits `n` of a width (00_scope.md R6). -/
def Width.bits : Width → Nat
  | .w8 => 8
  | .w16 => 16
  | .w32 => 32
  | .w64 => 64

end Sys2Proof

namespace Sys2Proof.Machine

/-- The bias ROM: 8 entries of 8 bits (10_state.md R12). -/
abbrev BiasRom := Vector (BitVec 8) 8

/-- A Configuration record, each field at its width on the response port (10_state.md R17). -/
structure CfgRecord where
  signBits : BitVec 1
  directionBits : BitVec 1
  regimeBits : BitVec 2
  overheadBits : BitVec 3
  maxMantissaBits : BitVec 6
  narPattern : BitVec 64
  zeroPattern : BitVec 64
  onePattern : BitVec 64
deriving DecidableEq, Repr

/-- The configuration table: one record for each supported width (10_state.md R17). -/
structure CfgTable where
  record8 : CfgRecord
  record16 : CfgRecord
  record32 : CfgRecord
  record64 : CfgRecord
deriving DecidableEq, Repr

/-- The record with every field 0, as a response that is not RESOLVE's carries it (30_encoding.md R43). -/
def CfgRecord.zero : CfgRecord :=
  { signBits := 0, directionBits := 0, regimeBits := 0, overheadBits := 0, maxMantissaBits := 0,
    narPattern := 0, zeroPattern := 0, onePattern := 0 }

/-- Entry `r` of the bias ROM, `2^(r+1) - 1` (41_bias_rom.md R56). -/
def biasEntry (r : Regime) : BitVec 8 := BitVec.ofNat 8 (2 ^ (r.val + 1) - 1)

/-- The contents of the bias ROM (10_state.md R12). -/
def biasRomContents : BiasRom := Vector.ofFn biasEntry

/-- `CFG(n)` with its patterns on the 64-bit port: `narPattern = -2^(n-1)`, sign-extended, and `onePattern = 2^(n-2)`
(40_config_resolver.md R49, R50). -/
def cfgRecordOf (n : Width) : CfgRecord :=
  { signBits := 1
    directionBits := 1
    regimeBits := 3
    overheadBits := 5
    maxMantissaBits := BitVec.ofNat 6 (n.bits - 5)
    narPattern := BitVec.ofInt 64 (-(2 ^ (n.bits - 1)))
    zeroPattern := 0
    onePattern := BitVec.ofNat 64 (2 ^ (n.bits - 2)) }

/-- The contents of the configuration table (10_state.md R17). -/
def cfgTableContents : CfgTable :=
  { record8 := cfgRecordOf .w8, record16 := cfgRecordOf .w16, record32 := cfgRecordOf .w32, record64 := cfgRecordOf .w64 }

end Sys2Proof.Machine
end

