-- ==== Sys2Proof/Machine/State.lean ====
section
/-! DEFINITION. The state of takum_core, the response record, the reasons a step could stop, and the state after reset. -/

namespace Sys2Proof.Machine

/-- The status of a response (30_encoding.md R43). -/
inductive Status where
  /-- `00`: the transaction ended with a result. -/
  | ok
  /-- `01`: the width is not 8, 16, 32 or 64 (60_exceptions.md R101). -/
  | invalidWidth
  /-- `10`: the index of BIAS is above 7 (60_exceptions.md R102). -/
  | outOfRange
  /-- `11`: reserved and never produced (60_exceptions.md R103). -/
  | outOfRangeRegime
deriving DecidableEq, Repr

/-- A response `RSP` (30_encoding.md R43). -/
structure Response where
  status : Status
  nar : Bool
  dout : Data
  cfg : CfgRecord
deriving DecidableEq, Repr

/-- The state of the block (10_state.md R11) with its interface state (R19, 70_reset_and_hazards.md R113) and the record of
the responses it has delivered. -/
structure State where
  /-- `BIASROM[0..7]`, a constant (10_state.md R12). -/
  biasRom : BiasRom
  /-- `CFGTAB`, a constant (10_state.md R17). -/
  cfgTab : CfgTable
  /-- The requests accepted and not yet answered, oldest first (10_state.md R19, 20_memory.md R31(b)). DESIGN CHOICE: no bound (log 3). -/
  pending : List Request
  /-- The level of the RESET input (70_reset_and_hazards.md R113). -/
  resetAsserted : Bool
  /-- The model's own record of the responses delivered, oldest first; the block stores none (10_state.md R16) and no
  operation reads it. DESIGN CHOICE (log 5). -/
  responses : List Response
deriving DecidableEq, Repr

/-- The faults of a step. There is none: "every request, legal or not, receives a response" (10_state.md R24), and the
errors InvalidWidth and OutOfRange are responses (60_exceptions.md R104). Safe. -/
inductive Fault where
deriving DecidableEq, Repr

/-- The refusals of a step. -/
inductive Refusal where
  /-- An instruction without a meaning. Raised by nobody in this model: every arm of `exec` calls a meaning. Safe. -/
  | notModelled (mnemonic : String)
deriving DecidableEq, Repr

/-- The block right after reset: the tables hold their constants, nothing is pending, and the RESET input has been released
(10_state.md R23, 70_reset_and_hazards.md R113, R114). -/
def State.reset : State :=
  { biasRom := biasRomContents
    cfgTab := cfgTableContents
    pending := []
    resetAsserted := false
    responses := [] }

end Sys2Proof.Machine
end

