-- ==== Sys2Proof/Machine/Operands.lean ====
section
/-! DEFINITION. Operand assembly (30_encoding.md R44) and the reads of the two constant tables (20_memory.md R29). -/

namespace Sys2Proof.Machine

/-- The width that `bits` selects, if it is 8, 16, 32 or 64 (30_encoding.md R44). -/
def widthOperand (bits : BitsOperand) : Option Width :=
  match bits.toNat with
  | 8 => some .w8
  | 16 => some .w16
  | 32 => some .w32
  | 64 => some .w64
  | _ => none

/-- The bias ROM index that `data` is, all 64 bits unsigned, if it is at most 7 (30_encoding.md R44, 41_bias_rom.md R57). -/
def indexOperand (data : Data) : Option Regime :=
  if h : data.toNat < 8 then some ⟨data.toNat, h⟩ else none

/-- The word operand of DECODE: `uint(data[n-1:0])`, the bits above ignored (30_encoding.md R44, 44_decoder.md R83). -/
def wordOperand (n : Width) (data : Data) : Nat := data.toNat % 2 ^ n.bits

/-- The read of bias ROM entry `r` (00_scope.md R9, 41_bias_rom.md R58). -/
def BiasRom.read (rom : BiasRom) (r : Regime) : BitVec 8 := rom[r.val]

/-- The record of width `n` in the configuration table (10_state.md R17). -/
def CfgTable.read (tab : CfgTable) (n : Width) : CfgRecord :=
  match n with
  | .w8 => tab.record8
  | .w16 => tab.record16
  | .w32 => tab.record32
  | .w64 => tab.record64

end Sys2Proof.Machine
end

