-- ==== Sys2Proof/Machine/Flags.lean ====
section
/-! DEFINITION. What a response carries besides its data: the status code and the `nar` flag (30_encoding.md R43). They are
outputs of one transaction and are not stored (10_state.md R16); there is no other flag (60_exceptions.md R112). -/

namespace Sys2Proof.Machine

/-- The 2-bit code of a status (30_encoding.md R43). -/
def Status.code : Status → BitVec 2
  | .ok => 0b00
  | .invalidWidth => 0b01
  | .outOfRange => 0b10
  | .outOfRangeRegime => 0b11

/-- The OK response in which no field is named: every field 0 (30_encoding.md R43). -/
def Response.ok : Response :=
  { status := .ok, nar := false, dout := 0, cfg := CfgRecord.zero }

/-- The error response of `raise E`: the code of `E` and 0 in every other field (60_exceptions.md R104). -/
def Response.error (e : Status) : Response :=
  { status := e, nar := false, dout := 0, cfg := CfgRecord.zero }

/-- The response of a transaction that names `dout` only. -/
def Response.data (dout : Data) : Response := { Response.ok with dout := dout }

/-- The response of RESOLVE, which names `cfg` only (40_config_resolver.md R50). -/
def Response.config (cfg : CfgRecord) : Response := { Response.ok with cfg := cfg }

/-- The NaR sentinel: `nar = 1` and the quiet NaN (44_decoder.md R82). -/
def Response.narSentinel : Response := { Response.ok with nar := true, dout := 0x7FF8000000000000 }

end Sys2Proof.Machine
end

