-- ==== Sys2Proof/Machine/Ops.lean ====
section
/-! DEFINITION. The shared operations over the state: delivering a response, raising an error (60_exceptions.md R104), taking
the next request, and what the outside does at the port (70_reset_and_hazards.md R113). -/

namespace Sys2Proof.Machine

/-- The end of a transaction: its response leaves on the response port, after all earlier ones (20_memory.md R31(b)); no other
state changes (10_state.md R11). -/
def State.deliver (r : Response) (s : State) : State :=
  { s with responses := s.responses ++ [r] }

/-- `return <fields>` (00_scope.md R9): the transaction ends with a response of status OK. -/
def State.answer (r : Response) (s : State) : Host.Outcome State Fault Refusal :=
  .next (s.deliver r)

/-- `raise <Error>` (00_scope.md R9, 60_exceptions.md R104): the transaction ends with the error response; nothing is saved, no
control is transferred. The block has no return from it (R108): the next request runs as any other. -/
def State.raise (e : Status) (s : State) : Host.Outcome State Fault Refusal :=
  .next (s.deliver (Response.error e))

/-- The oldest waiting request, and the state without it; none when nothing waits or RESET is asserted (10_state.md R22,
70_reset_and_hazards.md R113). -/
def State.takeRequest (s : State) : Option (Request × State) :=
  if s.resetAsserted then none
  else
    match s.pending with
    | [] => none
    | q :: rest => some (q, { s with pending := rest })

/-- A caller offers a request at the port: it waits behind the earlier ones (20_memory.md R31(b)). While RESET is asserted the
block accepts no request, so nothing changes (70_reset_and_hazards.md R113; log 4). -/
def State.accept (q : Request) (s : State) : State :=
  if s.resetAsserted then s else { s with pending := s.pending ++ [q] }

/-- RESET is asserted: what was accepted and not answered is dropped (70_reset_and_hazards.md R113). -/
def State.assertReset (s : State) : State :=
  { s with resetAsserted := true, pending := [] }

/-- RESET is released: nothing is pending, and the tables hold their constants (70_reset_and_hazards.md R113). -/
def State.releaseReset (s : State) : State :=
  { s with biasRom := biasRomContents, cfgTab := cfgTableContents, resetAsserted := false, pending := [] }

/-- A request put at the head of the queue with RESET released: the request the next step runs. -/
def State.offerFirst (q : Request) (s : State) : State :=
  { s with resetAsserted := false, pending := q :: s.pending }

end Sys2Proof.Machine
end

