-- ==== Sys2Proof/Machine/BiasUnit.lean ====
section
/-! DEFINITION. bias_rom: the operation BIAS (41_bias_rom.md). -/

namespace Sys2Proof.Machine

/-- BIAS (41_bias_rom.md R57). `bits` is ignored. -/
def execBias (_bits : BitsOperand) (data : Data) (s : State) : Host.Outcome State Fault Refusal :=
  match indexOperand data with
  | none => s.raise .outOfRange
  | some r => s.answer (Response.data ((BiasRom.read s.biasRom r).setWidth 64))

end Sys2Proof.Machine
end

