-- ==== Sys2Proof/Machine/ConfigResolver.lean ====
section
/-! DEFINITION. configuration_resolver: the operation RESOLVE (40_config_resolver.md). -/

namespace Sys2Proof.Machine

/-- RESOLVE (40_config_resolver.md R50). `data` is ignored. -/
def execResolve (bits : BitsOperand) (_data : Data) (s : State) : Host.Outcome State Fault Refusal :=
  match widthOperand bits with
  | none => s.raise .invalidWidth
  | some n => s.answer (Response.config (s.cfgTab.read n))

end Sys2Proof.Machine
end

