-- ==== Sys2Proof/Config.lean ====
section
/-! DEFINITION. What an implementation of takum_core fixes and the spec leaves OPEN: the two real functions.
They have no body: nothing can be proved of their values. Machine/RealUnit.lean holds them to the limits the spec sets. -/

namespace Sys2Proof

/-- The natural logarithm the implementation computes, before the limits P1 and P2 of 43_encoder.md R67 are applied
(92_eei_decisions.md D12, OPEN). DESIGN CHOICE, safe: a free value (log 1). -/
opaque Config.ln64 : F64 → F64

/-- The natural exponential the implementation computes, before the limits Q1 and Q2 of 44_decoder.md R88 are applied
(92_eei_decisions.md D12, OPEN). DESIGN CHOICE, safe: a free value (log 2). -/
opaque Config.exp64 : F64 → F64

end Sys2Proof
end

