-- ==== Sys2Proof/Machine/Binary64.lean ====
section
/-! DEFINITION. Binary64: the layout (30_encoding.md R38), rounding to nearest even (00_scope.md R8), and the operations the
rules write on binary64 values (45_properties.md R122), each performed exactly and rounded once.

Every finite binary64 value is an integer multiple of 2^-1074. `F64.scaled` is that integer, so the operations are exact
integer arithmetic followed by one `F64.rn`. -/

namespace Sys2Proof

/-- `x[63]` (30_encoding.md R38). -/
def F64.signbit (x : F64) : Bool := x.msb

/-- The biased exponent `e = x[62:52]` (30_encoding.md R38). -/
def F64.exponent (x : F64) : Nat := (x.extractLsb' 52 11).toNat

/-- The fraction `f = x[51:0]` (30_encoding.md R38). -/
def F64.fraction (x : F64) : Nat := (x.extractLsb' 0 52).toNat

/-- `isNaN(x)` (30_encoding.md R38). -/
def F64.isNaN (x : F64) : Bool := F64.exponent x == 0x7FF && F64.fraction x != 0

/-- `isInf(x)` (30_encoding.md R38). -/
def F64.isInf (x : F64) : Bool := F64.exponent x == 0x7FF && F64.fraction x == 0

/-- `isZero(x)`, true of both zeros (30_encoding.md R38). -/
def F64.isZero (x : F64) : Bool := F64.exponent x == 0 && F64.fraction x == 0

/-- Neither a NaN nor an infinity (30_encoding.md R38). -/
def F64.isFinite (x : F64) : Bool := F64.exponent x != 0x7FF

/-- A finite value that is neither zero nor subnormal (30_encoding.md R38). -/
def F64.isNormal (x : F64) : Bool := F64.exponent x != 0 && F64.exponent x != 0x7FF

/-- `+0.0` (30_encoding.md R38). -/
def F64.zero : F64 := 0x0000000000000000

/-- `1.0` (30_encoding.md R38). -/
def F64.one : F64 := 0x3FF0000000000000

/-- `-1.0` (30_encoding.md R38). -/
def F64.minusOne : F64 := 0xBFF0000000000000

/-- The canonical quiet NaN (30_encoding.md R38). -/
def F64.quietNaN : F64 := 0x7FF8000000000000

/-- `+Inf` (30_encoding.md R38). -/
def F64.posInf : F64 := 0x7FF0000000000000

/-- `-Inf` (30_encoding.md R38). -/
def F64.negInf : F64 := 0xFFF0000000000000

/-- The magnitude of a finite value, as a multiple of 2^-1074: `f` when subnormal, `(2^52 + f) * 2^(e-1)` when normal
(30_encoding.md R38). -/
def F64.magnitude (x : F64) : Nat :=
  if F64.exponent x = 0 then F64.fraction x else (2 ^ 52 + F64.fraction x) * 2 ^ (F64.exponent x - 1)

/-- The value of a finite pattern, as a multiple of 2^-1074 (30_encoding.md R38). -/
def F64.scaled (x : F64) : Int :=
  if F64.signbit x then -(F64.magnitude x : Int) else (F64.magnitude x : Int)

/-- `a / b` rounded to the nearest integer, ties to the even one (00_scope.md R8, 43_encoder.md R67). -/
def divHalfEven (a b : Nat) : Nat :=
  let q := a / b
  let rest := a % b
  if 2 * rest < b then q
  else if b < 2 * rest then q + 1
  else if q % 2 = 0 then q else q + 1

/-- The exponent and fraction bits of a magnitude that a binary64 value has exactly, or of infinity when it is too large
(30_encoding.md R38). -/
def F64.magnitudeBits (m : Nat) : Nat :=
  if m < 2 ^ 52 then m
  else
    let e := Nat.log2 m - 51
    if 0x7FF ≤ e then 0x7FF * 2 ^ 52 else e * 2 ^ 52 + (m / 2 ^ (e - 1) - 2 ^ 52)

/-- The binary64 pattern of a sign and a magnitude (30_encoding.md R38). -/
def F64.assemble (negative : Bool) (m : Nat) : F64 :=
  BitVec.ofNat 64 ((if negative then 2 ^ 63 else 0) + F64.magnitudeBits m)

/-- The unit in the last place of the binary64 values around `m / 2^k`, in units of 2^-k and as a power of 2: 53 significant
bits, and no place below 2^-1074. -/
def F64.ulpExponent (m k : Nat) : Nat := max (Nat.log2 m - 52) (k - 1074)

/-- `RN(z / 2^k)`: the binary64 value nearest to that real, ties to the even significand (00_scope.md R8). Every real that a
rule rounds has this form. -/
def F64.rn (z : Int) (k : Nat) : F64 :=
  let m := z.natAbs
  let u := F64.ulpExponent m k
  F64.assemble (decide (z < 0)) (divHalfEven m (2 ^ u) * 2 ^ (u + 1074 - k))

/-- `fabs(x)`: the sign bit cleared (00_scope.md R8). -/
def F64.fabs (x : F64) : F64 := x &&& 0x7FFFFFFFFFFFFFFF

/-- `-x`: the sign bit flipped. -/
def F64.neg (x : F64) : F64 := x ^^^ 0x8000000000000000

/-- `RN(t * 2^k)` (43_encoder.md R71). A zero keeps its sign (DESIGN CHOICE, safe: log 8). -/
def F64.scaleUp (t : F64) (k : Nat) : F64 :=
  if F64.isZero t then t else F64.rn (F64.scaled t * 2 ^ k) 1074

/-- `RN(2 * t)` (43_encoder.md R67). -/
def F64.twice (t : F64) : F64 := F64.scaleUp t 1

/-- `RN(t / 2)` (44_decoder.md R88). A zero keeps its sign (DESIGN CHOICE, safe: log 8). -/
def F64.half (t : F64) : F64 :=
  if F64.isZero t then t else F64.rn (F64.scaled t) 1075

/-- `RN(t + i)` for an integer `i` (44_decoder.md R87). -/
def F64.addInt (t : F64) (i : Int) : F64 := F64.rn (F64.scaled t + i * 2 ^ 1074) 1074

/-- `RN(t - i)` for an integer `i` (43_encoder.md R67). -/
def F64.subInt (t : F64) (i : Int) : F64 := F64.rn (F64.scaled t - i * 2 ^ 1074) 1074

/-- The binary64 value of an integer (45_properties.md R122). -/
def F64.ofInt (i : Int) : F64 := F64.rn i 0

/-- `RN(m / 2^k)` for a non-negative integer `m` (44_decoder.md R87). -/
def F64.fractionOf (m k : Nat) : F64 := F64.rn m k

/-- `round_half_even(t)`, a mathematical integer (43_encoder.md R67). -/
def F64.roundHalfEven (t : F64) : Int :=
  let m : Int := divHalfEven (F64.magnitude t) (2 ^ 1074)
  if F64.signbit t then -m else m

/-- `floor(t)`, toward minus infinity (43_encoder.md R71). -/
def F64.floor (t : F64) : Int := F64.scaled t / 2 ^ 1074

end Sys2Proof
end

