-- ==== Sys2Proof/Machine/RealUnit.lean ====
section
/-! DEFINITION. `LN64` and `EXP64`: the implementation's free functions, held to the limits the spec requires of them and to
nothing else. Every function that meets the limits is one of these (take it for the free function), so what is proved of
them holds for every implementation the spec admits. -/

namespace Sys2Proof

/-- A result that P1 allows `LN64` to give: finite and below 1024 in magnitude (43_encoder.md R67). -/
def F64.allowedLog (y : F64) : Bool :=
  F64.isFinite y && decide (F64.magnitude y < 1024 * 2 ^ 1074)

/-- A function held to P1 and P2 of 43_encoder.md R67; where it breaks P1 it is replaced by an arbitrary value P1 allows. -/
def limitLog (f : F64 → F64) (a : F64) : F64 :=
  if a = F64.one then F64.zero else if F64.allowedLog (f a) then f a else F64.zero

/-- `LN64`, the block's natural logarithm (43_encoder.md R67). Free but for P1 and P2 (DESIGN CHOICE, safe: log 1). -/
def LN64 (a : F64) : F64 := limitLog Config.ln64 a

/-- A result that Q1 allows `EXP64` to give: positive and normal (44_decoder.md R88). -/
def F64.allowedExp (y : F64) : Bool :=
  !F64.signbit y && F64.isNormal y

/-- The arguments Q1 speaks of: the binary64 values in `[-127.5, 191.5]` (44_decoder.md R88). -/
def F64.inExpDomain (t : F64) : Bool :=
  F64.isFinite t && decide (-255 * 2 ^ 1073 ≤ F64.scaled t) && decide (F64.scaled t ≤ 383 * 2 ^ 1073)

/-- A function held to Q1 and Q2 of 44_decoder.md R88; where it breaks Q1 it is replaced by an arbitrary value Q1 allows. -/
def limitExp (f : F64 → F64) (t : F64) : F64 :=
  if t = F64.zero then F64.one else if F64.inExpDomain t && !F64.allowedExp (f t) then F64.one else f t

/-- `EXP64`, the block's natural exponential (44_decoder.md R88). Free but for Q1 and Q2 (DESIGN CHOICE, safe: log 2). -/
def EXP64 (t : F64) : F64 := limitExp Config.exp64 t

end Sys2Proof
end

