-- ==== Sys2Proof/Machine/Takum.lean ====
section
/-! DEFINITION. The takum word: field widths, the regime selector, packing and unpacking (30_encoding.md R35 to R47,
40_config_resolver.md R51, 42_regime_selector.md R60). -/

namespace Sys2Proof.Machine

/-- `mbits(n, r) = max(0, n - 5 - r)`, the mantissa width at regime `r` (40_config_resolver.md R51). The subtraction of
natural numbers is the clamp. -/
def mbits (n : Width) (r : Regime) : Nat := n.bits - 5 - r.val

/-- `regimeOf(l_abs)`: the index of the highest set bit of `l_abs + 1`, at most 7 (42_regime_selector.md R60). -/
def regimeOf (lAbs : Nat) : Regime :=
  ⟨min 7 (Nat.log2 (lAbs + 1)), by omega⟩

/-- The integers that ENCODE assembles (30_encoding.md R47): the characteristic and the mantissa may be negative or too large
for their fields. -/
structure WordParts where
  s : Bool
  d : Bool
  r : Regime
  c : Int
  m : Int
deriving DecidableEq, Repr

/-- The fields that DECODE reads from a word (30_encoding.md R47). -/
structure WordFields where
  S : Bool
  D : Bool
  r : Regime
  C : Nat
  M : Nat
deriving DecidableEq, Repr

/-- `x mod 2^w` for any integer `x`: the low `w` bits of its two's-complement form (00_scope.md R7). -/
def lowBits (x : Int) (w : Nat) : Nat := (x % 2 ^ w).toNat

/-- `pack(n, s, d, r, c, m)`: the fields ORed into a word of `n` bits (30_encoding.md R47). -/
def pack (n : Width) (p : WordParts) : Nat :=
  ((p.s.toNat <<< (n.bits - 1)) ||| (p.d.toNat <<< (n.bits - 2)) ||| (p.r.val <<< (n.bits - 5))
    ||| (lowBits p.c p.r.val <<< mbits n p.r) ||| lowBits p.m (mbits n p.r)) % 2 ^ n.bits

/-- The regime field of a word, `(u >> (n-5)) & 7` (30_encoding.md R47). -/
def regimeField (n : Width) (u : Nat) : Regime := Fin.ofNat 8 (u >>> (n.bits - 5))

/-- `unpack(n, u)`: each field read from its own position (30_encoding.md R47). -/
def unpack (n : Width) (u : Nat) : WordFields :=
  let r := regimeField n u
  { S := u.testBit (n.bits - 1)
    D := u.testBit (n.bits - 2)
    r := r
    C := (u >>> mbits n r) &&& (2 ^ r.val - 1)
    M := u &&& (2 ^ mbits n r - 1) }

/-- The three semantic classes of a word (30_encoding.md R39). -/
inductive WordClass where
  | zero
  | nar
  | finite
deriving DecidableEq, Repr

/-- The class of word `u` where `narWord` is the NaR word of its width: every word is in exactly one (30_encoding.md R39). -/
def classOf (narWord u : Nat) : WordClass :=
  if u = narWord then .nar else if u = 0 then .zero else .finite

/-- `sext_64` of an `n`-bit word (00_scope.md R7, 43_encoder.md R73). -/
def sext64 (n : Width) (p : Nat) : Data := (BitVec.ofNat n.bits p).signExtend 64

/-- The signed reading `sint_n` of a word; its unsigned reading is `u` itself (30_encoding.md R46). -/
def signedReading (n : Width) (u : Nat) : Int := (BitVec.ofNat n.bits u).toInt

/-- The fields are disjoint and cover the word: `5 + r <= n`, so not at `n = 8` with `r > 3` (30_encoding.md R36, R37). -/
def fieldsFit (n : Width) (r : Regime) : Bool := decide (5 + r.val ≤ n.bits)

end Sys2Proof.Machine
end

