-- ==== Sys2Proof/Machine/Decoder.lean ====
section
/-! DEFINITION. takum_decoder: the operation DECODE (44_decoder.md). The exponential is an argument of the steps, so that a
statement may speak of any `EXP64`; `execDecode` supplies the block's own. -/

namespace Sys2Proof.Machine

/-- `l_biased` of a word with `D = 0`: 0 at regime 0, else `BIASROM[r] - 1 - C` (44_decoder.md R86). -/
def biasedLog (rom : BiasRom) (f : WordFields) : Int :=
  if f.r = 0 then 0 else (BiasRom.read rom f.r).toNat - 1 - f.C

/-- The integer logarithm `l` of a word's fields (44_decoder.md R86). -/
def decodedLog (rom : BiasRom) (f : WordFields) : Int :=
  if f.D then (if f.r = 0 then 0 else (BiasRom.read rom f.r).toNat + f.C) else -(biasedLog rom f + 1)

/-- `l_float` of a word's fields: `RN(l + RN(M / 2^m_bits))`, or `l` when there is no mantissa (44_decoder.md R87). -/
def decodedFloatLog (rom : BiasRom) (n : Width) (f : WordFields) : F64 :=
  let l := decodedLog rom f
  let mb := mbits n f.r
  if 0 < mb then F64.addInt (F64.fractionOf f.M mb) l else F64.ofInt l

/-- The value of a finite word: `EXP64(l_float / 2)` with the sign applied (44_decoder.md R88, R90). -/
def decodeFinite (rom : BiasRom) (exp : F64 → F64) (n : Width) (u : Nat) : F64 :=
  let f := unpack n u
  let mag := exp (F64.half (decodedFloatLog rom n f))
  if f.S then mag ||| 0x8000000000000000 else mag

/-- The response of DECODE at a legal width, special words first (44_decoder.md R82, R89, R90). -/
def decodeResult (rom : BiasRom) (cfg : CfgRecord) (exp : F64 → F64) (n : Width) (u : Nat) : Response :=
  match classOf (wordOperand n cfg.narPattern) u with
  | .nar => Response.narSentinel
  | .zero => Response.data 0x0000000000000000
  | .finite => Response.data (decodeFinite rom exp n u)

/-- DECODE (44_decoder.md R90). The width is checked before the operand is looked at (60_exceptions.md R106). -/
def execDecode (bits : BitsOperand) (data : Data) (s : State) : Host.Outcome State Fault Refusal :=
  match widthOperand bits with
  | none => s.raise .invalidWidth
  | some n => s.answer (decodeResult s.biasRom (s.cfgTab.read n) EXP64 n (wordOperand n data))

end Sys2Proof.Machine
end

