-- ==== Sys2Proof/Machine/Encoder.lean ====
section
/-! DEFINITION. takum_encoder: the operation ENCODE (43_encoder.md). The logarithm is an argument of the steps, so that a
statement may speak of any `LN64`; `execEncode` supplies the block's own. -/

namespace Sys2Proof.Machine

/-- `l_exact = RN(2 * LN64(fabs(x)))` (43_encoder.md R66, R67). -/
def exactLog (ln : F64 → F64) (x : F64) : F64 := F64.twice (ln (F64.fabs x))

/-- `l = max(-255, min(255, round_half_even(l_exact)))` (43_encoder.md R67). -/
def clampedLog (lExact : F64) : Int := max (-255) (min 255 (F64.roundHalfEven lExact))

/-- `l_frac = RN(fabs(l_exact) - |l|)` (43_encoder.md R67). -/
def fractionalLog (lExact : F64) (l : Int) : F64 := F64.subInt (F64.fabs lExact) l.natAbs

/-- The characteristic `c` of the integer logarithm `l` in regime `r` (43_encoder.md R70). -/
def characteristic (rom : BiasRom) (l : Int) (r : Regime) : Int :=
  if r = 0 then 0
  else if 0 ≤ l then l - (BiasRom.read rom r).toNat
  else (BiasRom.read rom r).toNat - 1 - l.natAbs

/-- The mantissa `m = floor(l_frac * 2^mb)`, or 0 when `mb = 0` (43_encoder.md R71). -/
def mantissa (lFrac : F64) (mb : Nat) : Int :=
  if 0 < mb then F64.floor (F64.scaleUp lFrac mb) else 0

/-- Steps 4 to 7: the parts of the word from the sign and the logarithm (43_encoder.md R68 to R71). -/
def encodeParts (rom : BiasRom) (n : Width) (s : Bool) (lExact : F64) : WordParts :=
  let l := clampedLog lExact
  let r := regimeOf l.natAbs
  { s := s
    d := decide (0 ≤ l)
    r := r
    c := characteristic rom l r
    m := mantissa (fractionalLog lExact l) (mbits n r) }

/-- The word of a finite non-zero `x` (43_encoder.md R66 to R72). -/
def encodeFinite (rom : BiasRom) (ln : F64 → F64) (n : Width) (x : F64) : Nat :=
  pack n (encodeParts rom n (F64.signbit x) (exactLog ln x))

/-- `dout` of ENCODE at a legal width, special values first (43_encoder.md R65, R73, R74). -/
def encodeResult (rom : BiasRom) (cfg : CfgRecord) (ln : F64 → F64) (n : Width) (x : F64) : Data :=
  if F64.isNaN x || F64.isInf x then cfg.narPattern
  else if F64.isZero x then 0
  else sext64 n (encodeFinite rom ln n x)

/-- ENCODE (43_encoder.md R74). The width is checked before the operand is looked at (60_exceptions.md R106). -/
def execEncode (bits : BitsOperand) (data : Data) (s : State) : Host.Outcome State Fault Refusal :=
  match widthOperand bits with
  | none => s.raise .invalidWidth
  | some n => s.answer (Response.data (encodeResult s.biasRom (s.cfgTab.read n) LN64 n data))

end Sys2Proof.Machine
end

