-- ==== Sys2Proof/Machine/Dispatch.lean ====
section
/-! DEFINITION. The operation map: each instruction to its meaning (30_encoding.md R42). -/

namespace Sys2Proof.Machine

/-- The transaction an instruction asks for (10_state.md R22). -/
def exec (i : Instr) (s : State) : Host.Outcome State Fault Refusal :=
  match i with
  | .resolve bits data => Sys2Proof.Machine.execResolve bits data s
  | .bias bits data => Sys2Proof.Machine.execBias bits data s
  | .encode bits data => Sys2Proof.Machine.execEncode bits data s
  | .decode bits data => Sys2Proof.Machine.execDecode bits data s

end Sys2Proof.Machine
end

