-- ==== Sys2Proof/Machine/Step.lean ====
section
/-! DEFINITION. The step of the block: one whole transaction (10_state.md R21, R22). -/

namespace Sys2Proof.Machine

/-- Execute the oldest waiting request (10_state.md R22). With none, or with RESET asserted, the block does nothing: it
"executes nothing on its own" (R23; log 6). -/
def step (s : State) : Host.Outcome State Fault Refusal :=
  match s.takeRequest with
  | none => .next s
  | some (q, rest) => exec (decodeRequest q) rest

/-- `s` with the request of a table word accepted ahead of those that wait: what the next step runs (log 10). The padding
above bit 72 is on no wire of the port (log 9). -/
def State.withFetchWord (s : State) (nbits w : Nat) : State :=
  s.offerFirst (BitVec.ofNat 73 (w % 2 ^ nbits))

end Sys2Proof.Machine
end

