-- ==== Sys2Proof/Safety.lean ====
section
/-! DEFINITION. What a safe run of takum_core is: the invariant of its states, the legal responses, the events at the port,
and the limits on the two real functions, in the terms the statements use. -/

namespace Sys2Proof.Machine

/-- The two tables hold their constants (10_state.md R11, R12, R17). -/
def State.hardwired (s : State) : Bool :=
  s.biasRom == biasRomContents && s.cfgTab == cfgTableContents

/-- A response the block may give: an error response is the code and zeros (60_exceptions.md R104), the reserved status never
occurs (R103), and `nar` comes only with status OK, the quiet NaN and no configuration (30_encoding.md R43). -/
def Response.legal (r : Response) : Bool :=
  match r.status with
  | .ok => !r.nar || r == Response.narSentinel
  | .invalidWidth => r == Response.error .invalidWidth
  | .outOfRange => r == Response.error .outOfRange
  | .outOfRangeRegime => false

/-- The invariant of the block: the tables hold their constants (10_state.md R11), nothing is pending while RESET is asserted
(70_reset_and_hazards.md R113), and every response delivered is legal. -/
def State.inv (s : State) : Bool :=
  s.hardwired && (!s.resetAsserted || s.pending.isEmpty) && s.responses.all Response.legal

/-- What can happen at the block's border, and the block's own step (10_state.md R21, 70_reset_and_hazards.md R113). -/
inductive PortEvent where
  /-- A caller offers a request. -/
  | request (q : Request)
  /-- The RESET input is asserted. -/
  | assertReset
  /-- The RESET input is released. -/
  | releaseReset
  /-- The block executes one transaction. -/
  | work
deriving DecidableEq, Repr

/-- One event. -/
def runEvent (e : PortEvent) (s : State) : Host.Outcome State Fault Refusal :=
  match e with
  | .request q => .next (s.accept q)
  | .assertReset => .next s.assertReset
  | .releaseReset => .next s.releaseReset
  | .work => step s

/-- A sequence of events, stopping at the first fault or refusal. -/
def runEvents : List PortEvent → State → Host.Outcome State Fault Refusal
  | [], s => .next s
  | e :: rest, s =>
    match runEvent e s with
    | .next t => runEvents rest t
    | .fault f => .fault f
    | .refused f => .refused f

/-- The response `exec(q)` of 10_state.md R22: what the block answers to `q` right after reset. -/
def responseTo (q : Request) : Response :=
  match exec (decodeRequest q) State.reset with
  | .next t => t.responses.headD (Response.error .outOfRangeRegime)
  | .fault f => nomatch f
  | .refused _ => Response.error .outOfRangeRegime

/-- A finite binary64 value other than zero: what ENCODE steps 2 to 8 run on (43_encoder.md R66). -/
def finiteNonzero (x : F64) : Bool := F64.isFinite x && !F64.isZero x

/-- The requirements P1 and P2 on `LN64` (43_encoder.md R67). -/
def LogLimits (ln : F64 → F64) : Prop :=
  (∀ a, F64.signbit a = false → finiteNonzero a = true → F64.allowedLog (ln a) = true) ∧ ln F64.one = F64.zero

/-- The requirements Q1 and Q2 on `EXP64` (44_decoder.md R88). -/
def ExpLimits (exp : F64 → F64) : Prop :=
  (∀ t, F64.inExpDomain t = true → F64.allowedExp (exp t) = true) ∧ exp F64.zero = F64.one

/-- `x` is the rounding of the real `t` to binary64: finite, and no finite value is nearer; `RN(0)` is `+0.0`
(00_scope.md R8). The scale is that of `F64.scaled`, 2^-1074. -/
def IsRoundingOf (t : ℝ) (x : F64) : Prop :=
  F64.isFinite x = true ∧ (t = 0 → x = F64.zero)
    ∧ ∀ y : F64, F64.isFinite y = true → |(F64.scaled x : ℝ) - t * 2 ^ 1074| ≤ |(F64.scaled y : ℝ) - t * 2 ^ 1074|

/-- P3, the default instantiation of `LN64`: the rounded real logarithm (43_encoder.md R67). The model does not assume it. -/
def RoundedLog (ln : F64 → F64) : Prop :=
  ∀ a, F64.signbit a = false → finiteNonzero a = true →
    IsRoundingOf (Real.log ((F64.scaled a : ℝ) / 2 ^ 1074)) (ln a)

/-- Q3, the default instantiation of `EXP64`: the rounded real exponential (44_decoder.md R88). The model does not assume it. -/
def RoundedExp (exp : F64 → F64) : Prop :=
  ∀ t, F64.inExpDomain t = true → IsRoundingOf (Real.exp ((F64.scaled t : ℝ) / 2 ^ 1074)) (exp t)

end Sys2Proof.Machine
end

