-- ==== Sys2Proof/Certificates/Slice0/Obligations.lean ====
section
/-! DEFINITION. The statements about takum_core. Each names the rule of spec/ it formalises. `s.hardwired` is the premise that
the two constant tables hold their constants (10_state.md R11); `State.inv`, which `StepKeepsInvariant` and
`EveryRunCompletesAndKeepsTheInvariant` preserve, contains it. -/

open Sys2Proof Sys2Proof.Machine

/-! ## The request word -/

/-- Taking a request apart and putting it together undo each other, for every instruction and for every 73-bit word
(30_encoding.md section 2; the format is the spec's decision D2). -/
def Obligations.RequestWordRoundTrip : Prop :=
  (∀ i : Instr, decodeRequest (encodeRequest i) = i) ∧ (∀ q : Request, encodeRequest (decodeRequest q) = q)

/-- A word matches a row of the opcode table (`match`, `mask`) exactly when it decodes to that row's operation, with `bits`
and `data` read from 70:64 and 63:0 (30_encoding.md section 2; the codes are the spec's decision D4). -/
def Obligations.TableRowsSelectTheOperation : Prop :=
  ∀ q : Request,
    (q &&& 0x1800000000000000000 = 0x0000000000000000000
      ↔ decodeRequest q = .resolve ((q >>> 64).setWidth 7) (q.setWidth 64))
    ∧ (q &&& 0x1800000000000000000 = 0x0800000000000000000
      ↔ decodeRequest q = .bias ((q >>> 64).setWidth 7) (q.setWidth 64))
    ∧ (q &&& 0x1800000000000000000 = 0x1000000000000000000
      ↔ decodeRequest q = .encode ((q >>> 64).setWidth 7) (q.setWidth 64))
    ∧ (q &&& 0x1800000000000000000 = 0x1800000000000000000
      ↔ decodeRequest q = .decode ((q >>> 64).setWidth 7) (q.setWidth 64))

/-- Request words the spec writes out decode to the transactions beside them (95_test_vectors.md section 3). -/
def Obligations.SpecRequestWordsDecode : Prop :=
  decode 0x0100000000000000000 = .ok (.resolve 16 0)
    ∧ decode 0x0E30000000000000007 = .ok (.bias 99 7)
    ∧ decode 0x1103FF0000000000000 = .ok (.encode 16 0x3FF0000000000000)
    ∧ decode 0x190FFFFFFFFFFFFC98B = .ok (.decode 16 0xFFFFFFFFFFFFC98B)

/-- A number is a request exactly when it fits the 73 wires of the port; any other is rejected by name. The model's choice of
what a wider number is (log 9). -/
def Obligations.NumbersThatFitThePortDecode : Prop :=
  ∀ w : Nat, (w < 2 ^ 73 → ∃ i, decode w = .ok i) ∧ (2 ^ 73 ≤ w → decode w = .error .widerThanRequest)

/-! ## The step, the queue and reset -/

/-- With RESET released, a step runs the oldest waiting request, whole, on the state without it. With nothing waiting, or with
RESET asserted, the state stays (10_state.md section 4; that a step with nothing to run, or under RESET, changes nothing is the
model's choice, logs 6 and 4). -/
def Obligations.StepRunsTheOldestRequest : Prop :=
  (∀ (s : State) (q : Request) (rest : List Request), s.resetAsserted = false → s.pending = q :: rest →
      step s = exec (decodeRequest q) { s with pending := rest })
    ∧ (∀ s : State, s.pending = [] → step s = .next s)
    ∧ (∀ s : State, s.resetAsserted = true → step s = .next s)

/-- A table word offered at the port is what the next step runs (log 10: how a program comes to run; log 9: padding bits). -/
def Obligations.OfferedTableWordRunsNext : Prop :=
  ∀ (s : State) (nbits w : Nat), ∃ i : Instr, decodeTableWord nbits w = some i
    ∧ step (s.withFetchWord nbits w) = exec i { s with resetAsserted := false }

/-- What reset leaves: the two tables with the values of 10_state.md R12 and R17, and nothing pending (10_state.md section 5,
70_reset_and_hazards.md section 1). Two clauses are the model's choice: that the RESET input stands released (log 4) and that
the record of responses starts empty (log 5). -/
def Obligations.ResetLeavesTheTablesAndNothingPending : Prop :=
  State.reset.biasRom = #v[1, 3, 7, 15, 31, 63, 127, 255]
    ∧ State.reset.cfgTab.record8 = ⟨1, 1, 3, 5, 3, 0xFFFFFFFFFFFFFF80, 0, 0x40⟩
    ∧ State.reset.cfgTab.record16 = ⟨1, 1, 3, 5, 11, 0xFFFFFFFFFFFF8000, 0, 0x4000⟩
    ∧ State.reset.cfgTab.record32 = ⟨1, 1, 3, 5, 27, 0xFFFFFFFF80000000, 0, 0x40000000⟩
    ∧ State.reset.cfgTab.record64 = ⟨1, 1, 3, 5, 59, 0x8000000000000000, 0, 0x4000000000000000⟩
    ∧ State.reset.pending = [] ∧ State.reset.resetAsserted = false ∧ State.reset.responses = []

/-- RESET drops what is pending and changes no table; while it is asserted no request is accepted; after its release nothing is
pending and the very first request is executed as any other (70_reset_and_hazards.md section 1). The spec speaks of what is
dropped only at the release: that it is dropped already at the assertion, and that a request offered meanwhile leaves no trace,
is the model's choice (log 4). -/
def Obligations.ResetDropsPendingRequests : Prop :=
  (∀ s : State, s.hardwired = true →
      s.assertReset = { s with resetAsserted := true, pending := [] }
      ∧ s.assertReset.releaseReset = { s with resetAsserted := false, pending := [] })
    ∧ (∀ (s : State) (q : Request), s.resetAsserted = true → s.accept q = s)
    ∧ (∀ (s : State) (q : Request), step (s.releaseReset.accept q) = exec (decodeRequest q) s.releaseReset)

/-- The state after reset meets the invariant (10_state.md section 5; that RESET stands released and that the record of responses
is empty is the model's choice, logs 4 and 5). -/
def Obligations.ResetMeetsTheInvariant : Prop := State.reset.inv = true

/-- From every state that meets the invariant, a step gives a state that meets it: the tables keep their constants, nothing
is pending under RESET, and every response is one the block may give (10_state.md section 1, 70_reset_and_hazards.md section 1,
60_exceptions.md section 1). The clause on RESET is the model's choice: the spec has nothing pending at its release, and the model
drops what is pending already at its assertion (log 4). -/
def Obligations.StepKeepsInvariant : Prop :=
  ∀ s t : State, s.inv = true → step s = .next t → t.inv = true

/-- No sequence of port events and steps ever ends in a fault or a refusal, from any state; and it keeps the invariant
(10_state.md section 5: every request, legal or not, receives a response, by decision D16; that the queue has no bound and what
RESET does to it are the model's choices, logs 3 and 4). -/
def Obligations.EveryRunCompletesAndKeepsTheInvariant : Prop :=
  ∀ (es : List PortEvent) (s : State), ∃ t, runEvents es s = .next t ∧ (s.inv = true → t.inv = true)

/-- Every request gets exactly one response, in the order the requests were offered, and it is the response that the request
alone gets right after reset: those that waited first, then those accepted since (20_memory.md section 2, 10_state.md section 4;
order by decision D20; the queue without a bound is the model's choice, log 3). -/
def Obligations.RequestsAreAnsweredInTheOrderOffered : Prop :=
  ∀ (s : State) (offered : List Request), s.hardwired = true → s.resetAsserted = false →
    Host.Core.run Sys2Proof.core (s.pending.length + offered.length) (offered.foldl (fun t q => t.accept q) s)
      = .next { s with pending := [], responses := s.responses ++ (s.pending ++ offered).map responseTo }

/-! ## All four operations -/

/-- No operation writes state: a transaction adds one response to the record and leaves the tables, the queue and the RESET
input as they were (10_state.md section 1, decision D18). -/
def Obligations.ExecChangesOnlyTheResponseRecord : Prop :=
  ∀ (i : Instr) (s t : State), exec i s = .next t →
    t.biasRom = s.biasRom ∧ t.cfgTab = s.cfgTab ∧ t.pending = s.pending ∧ t.resetAsserted = s.resetAsserted
      ∧ ∃ r : Response, t.responses = s.responses ++ [r]

/-- Every transaction completes; its status is OK exactly when the operands are legal, and never the reserved code
(30_encoding.md section 2, 60_exceptions.md section 1, decisions D16, D17). -/
def Obligations.StatusIsOkExactlyForLegalOperands : Prop :=
  ∀ (i : Instr) (s : State), ∃ r : Response, exec i s = .next { s with responses := s.responses ++ [r] }
    ∧ (r.status = .ok ↔ i.wellFormed = true) ∧ r.status ≠ .outOfRangeRegime

/-- The response is a function of the request alone: two states that differ in their queues, their histories and the RESET
input give the same one (10_state.md section 4). -/
def Obligations.ResponseDependsOnTheRequestAlone : Prop :=
  ∀ (i : Instr) (s s' : State), s.hardwired = true → s'.hardwired = true →
    ∃ r : Response, exec i s = .next { s with responses := s.responses ++ [r] }
      ∧ exec i s' = .next { s' with responses := s'.responses ++ [r] }

/-- RESOLVE ignores `data`, BIAS ignores `bits` (30_encoding.md section 2, decisions D4, D5). -/
def Obligations.IgnoredFieldsDoNotMatter : Prop :=
  (∀ (bits : BitsOperand) (data data' : Data) (s : State), exec (.resolve bits data) s = exec (.resolve bits data') s)
    ∧ (∀ (bits bits' : BitsOperand) (data : Data) (s : State), exec (.bias bits data) s = exec (.bias bits' data) s)

/-- RESOLVE, ENCODE and DECODE at a width other than 8, 16, 32, 64 answer InvalidWidth with 0 in every other field, whatever
`data` holds, and change nothing else (60_exceptions.md section 1, decisions D5, D16, D27). -/
def Obligations.IllegalWidthAnswersInvalidWidth : Prop :=
  ∀ (bits : BitsOperand) (data : Data) (s : State),
    bits.toNat ≠ 8 → bits.toNat ≠ 16 → bits.toNat ≠ 32 → bits.toNat ≠ 64 →
    let t : State := { s with responses := s.responses
      ++ [{ status := .invalidWidth, nar := false, dout := 0, cfg := ⟨0, 0, 0, 0, 0, 0, 0, 0⟩ }] }
    exec (.resolve bits data) s = .next t ∧ exec (.encode bits data) s = .next t ∧ exec (.decode bits data) s = .next t

/-! ## RESOLVE, BIAS -/

/-- RESOLVE at a legal width answers status OK and `CFG(n)`, with 0 in `nar` and `dout`, and changes nothing else
(40_config_resolver.md, R49 and R50; the port widths are the spec's decision D3). -/
def Obligations.ResolveAnswersTheConfiguration : Prop :=
  ∀ (n : Width) (bits : BitsOperand) (data : Data) (s : State), s.hardwired = true → bits.toNat = n.bits →
    exec (.resolve bits data) s = .next { s with responses := s.responses
      ++ [{ status := .ok, nar := false, dout := 0,
            cfg := { signBits := 1, directionBits := 1, regimeBits := 3, overheadBits := 5,
                     maxMantissaBits := BitVec.ofNat 6 (n.bits - 5),
                     narPattern := (BitVec.ofNat n.bits (2 ^ (n.bits - 1))).signExtend 64,
                     zeroPattern := 0,
                     onePattern := (BitVec.ofNat n.bits (2 ^ (n.bits - 2))).setWidth 64 } }] }

/-- BIAS with an index of at most 7 answers status OK and `2^(r+1) - 1`, with 0 elsewhere, and changes nothing else
(41_bias_rom.md, R56 and R57; the whole data field as the index is decision D6). -/
def Obligations.BiasAnswersTheEntry : Prop :=
  ∀ (bits : BitsOperand) (data : Data) (s : State), s.hardwired = true → data.toNat ≤ 7 →
    exec (.bias bits data) s = .next { s with responses := s.responses
      ++ [{ status := .ok, nar := false, dout := BitVec.ofNat 64 (2 ^ (data.toNat + 1) - 1),
            cfg := ⟨0, 0, 0, 0, 0, 0, 0, 0⟩ }] }

/-- BIAS with an index above 7 answers OutOfRange with 0 in every other field, whatever `bits` holds, and changes nothing else
(60_exceptions.md section 1, 41_bias_rom.md; decisions D6, D16). -/
def Obligations.BiasIndexAboveSevenAnswersOutOfRange : Prop :=
  ∀ (bits : BitsOperand) (data : Data) (s : State), 7 < data.toNat →
    exec (.bias bits data) s = .next { s with responses := s.responses
      ++ [{ status := .outOfRange, nar := false, dout := 0, cfg := ⟨0, 0, 0, 0, 0, 0, 0, 0⟩ }] }

/-- The bias ROM holds `2^(r+1) - 1` at every index (41_bias_rom.md R56). -/
def Obligations.BiasRomHoldsTheClosedForm : Prop :=
  ∀ r : Regime, (BiasRom.read State.reset.biasRom r).toNat = 2 ^ (r.val + 1) - 1

/-! ## The takum word -/

/-- `mbits(n, r) = max(0, n - 5 - r)` in the integers (40_config_resolver.md R51). -/
def Obligations.MantissaWidthIsClamped : Prop :=
  ∀ (n : Width) (r : Regime), (mbits n r : Int) = max 0 ((n.bits : Int) - 5 - (r.val : Int))

/-- `regimeOf` is 0 at 0 and otherwise `floor(log2(l_abs + 1))`, at most 7 (42_regime_selector.md R60). -/
def Obligations.RegimeIsTheClampedLogarithm : Prop :=
  ∀ lAbs : Nat, (regimeOf lAbs).val = if lAbs = 0 then 0 else min 7 (Nat.log 2 (lAbs + 1))

/-- Regime `r` owns exactly `[2^r - 1, 2^(r+1) - 2]`, and regime 7 everything from 127 on (42_regime_selector.md, the table of
ranges). -/
def Obligations.RegimeOwnsItsRange : Prop :=
  ∀ (lAbs : Nat) (r : Regime), regimeOf lAbs = r ↔ 2 ^ r.val - 1 ≤ lAbs ∧ (r.val < 7 → lAbs ≤ 2 ^ (r.val + 1) - 2)

/-- The five fields cover the word exactly when they fit, which fails only at `n = 8` with `r > 3` (30_encoding.md section 1,
45_properties.md on bit-width independence). -/
def Obligations.FieldsCoverTheWordExactlyWhenTheyFit : Prop :=
  ∀ (n : Width) (r : Regime),
    (1 + 1 + 3 + r.val + mbits n r = n.bits ↔ fieldsFit n r = true) ∧ (fieldsFit n r = false ↔ n = .w8 ∧ 3 < r.val)

/-- Where the fields fit, unpacking a packed word gives back the fields, each cut to its width (30_encoding.md section 2, the
packing primitives; the cut is decision D14). -/
def Obligations.UnpackUndoesPackWhereFieldsFit : Prop :=
  ∀ (n : Width) (p : WordParts), fieldsFit n p.r = true →
    unpack n (pack n p) = { S := p.s, D := p.d, r := p.r, C := (p.c % 2 ^ p.r.val).toNat, M := (p.m % 2 ^ mbits n p.r).toNat }

/-- Packing the fields read from a word gives the word back, at every width and regime, the overlapping ones too
(30_encoding.md sections 1 and 2; the OR is decision D15). -/
def Obligations.PackUndoesUnpack : Prop :=
  ∀ (n : Width) (u : Nat), u < 2 ^ n.bits →
    pack n { s := (unpack n u).S, d := (unpack n u).D, r := (unpack n u).r, c := (unpack n u).C, m := (unpack n u).M } = u

/-- `sext_64` keeps the signed reading of a word, and DECODE at the same width reads the word back from it, as it does from the
zero-extended copy (43_encoder.md on the result, 30_encoding.md on the operands; decisions D7, D8). -/
def Obligations.SignExtensionKeepsTheWord : Prop :=
  ∀ (n : Width) (u : Nat), u < 2 ^ n.bits →
    (sext64 n u).toInt = signedReading n u ∧ wordOperand n (sext64 n u) = u ∧ wordOperand n (BitVec.ofNat 64 u) = u

/-! ## Binary64 arithmetic and the two real functions -/

/-- `F64.rn` is correct rounding: below the overflow threshold its result is finite, no finite binary64 value is nearer to
`z / 2^k`, and where another is as near the result has an even last significand bit (00_scope.md section 5 and 45_properties.md
on real-number arithmetic; decision D11). Values are compared at the common scale `2^-(k + 1074)`. -/
def Obligations.RoundingIsToNearestEven : Prop :=
  ∀ (z : Int) (k : Nat), z.natAbs < (2 ^ 54 - 1) * 2 ^ (970 + k) →
    F64.isFinite (F64.rn z k) = true
    ∧ ∀ y : F64, F64.isFinite y = true →
      |F64.scaled (F64.rn z k) * 2 ^ k - z * 2 ^ 1074| ≤ |F64.scaled y * 2 ^ k - z * 2 ^ 1074|
      ∧ (|F64.scaled (F64.rn z k) * 2 ^ k - z * 2 ^ 1074| = |F64.scaled y * 2 ^ k - z * 2 ^ 1074| →
          F64.scaled y ≠ F64.scaled (F64.rn z k) → F64.fraction (F64.rn z k) % 2 = 0)

/-- `round_half_even(t)` is within one half of `t`, and even when it is exactly one half away (43_encoder.md step 3; decision
D13). -/
def Obligations.RoundHalfEvenIsNearest : Prop :=
  ∀ t : F64, 2 * |F64.scaled t - F64.roundHalfEven t * 2 ^ 1074| ≤ 2 ^ 1074
    ∧ (2 * |F64.scaled t - F64.roundHalfEven t * 2 ^ 1074| = 2 ^ 1074 → F64.roundHalfEven t % 2 = 0)

/-- The block's `LN64` and `EXP64` meet P1, P2, Q1 and Q2, and a function that meets them is left as it is where they speak of
it: the limits bind the two free functions and nothing else does (43_encoder.md step 3, 44_decoder.md step 7, decision D12;
logs 1 and 2). -/
def Obligations.RealFunctionsMeetTheirLimitsAndNoMore : Prop :=
  LogLimits LN64 ∧ ExpLimits EXP64
    ∧ (∀ f : F64 → F64, LogLimits f → ∀ a, F64.signbit a = false → finiteNonzero a = true → limitLog f a = f a)
    ∧ (∀ f : F64 → F64, ExpLimits f → ∀ t, F64.inExpDomain t = true → limitExp f t = f t)

/-- The default instantiations P3 and Q3, the correctly rounded real logarithm and exponential, are among the functions the
limits admit: P3 implies P1 and P2, and Q3 implies Q1 and Q2 (43_encoder.md step 3, 44_decoder.md step 7, decision D12). -/
def Obligations.CorrectlyRoundedFunctionsAreAdmitted : Prop :=
  (∀ ln : F64 → F64, RoundedLog ln → LogLimits ln) ∧ (∀ exp : F64 → F64, RoundedExp exp → ExpLimits exp)

/-! ## ENCODE -/

/-- ENCODE at a legal width of a NaN or an infinity answers the NaR word, of either zero the word 0, with status OK, `nar = 0`
and 0 elsewhere (43_encoder.md step 1; the two zeros are decision D10, the sign extension D7). -/
def Obligations.EncodeAnswersSpecialValuesInBand : Prop :=
  ∀ (n : Width) (bits : BitsOperand) (x : Data) (s : State), s.hardwired = true → bits.toNat = n.bits →
    (F64.exponent x = 0x7FF → exec (.encode bits x) s = .next { s with responses := s.responses
        ++ [{ status := .ok, nar := false, dout := (BitVec.ofNat n.bits (2 ^ (n.bits - 1))).signExtend 64,
              cfg := ⟨0, 0, 0, 0, 0, 0, 0, 0⟩ }] })
    ∧ (x = 0x0000000000000000 ∨ x = 0x8000000000000000 → exec (.encode bits x) s = .next { s with
        responses := s.responses ++ [{ status := .ok, nar := false, dout := 0, cfg := ⟨0, 0, 0, 0, 0, 0, 0, 0⟩ }] })

/-- ENCODE at a legal width of a finite non-zero value answers status OK and the word that steps 2 to 8 give, sign-extended,
with 0 elsewhere, and changes nothing else (43_encoder.md steps 2 to 8; ties, field cuts, overlap and sign extension are
decisions D13, D14, D15, D7; `LN64` is free but for its limits, log 1). -/
def Obligations.EncodeFollowsItsSteps : Prop :=
  ∀ (n : Width) (bits : BitsOperand) (x : Data) (s : State), s.hardwired = true → bits.toNat = n.bits →
    finiteNonzero x = true →
    let lExact := F64.twice (LN64 (F64.fabs x))
    let l := max (-255) (min 255 (F64.roundHalfEven lExact))
    let lFrac := F64.subInt (F64.fabs lExact) l.natAbs
    let r := (regimeOf l.natAbs).val
    let bias : Int := 2 ^ (r + 1) - 1
    let c : Int := if r = 0 then 0 else if 0 ≤ l then l - bias else bias - 1 - |l|
    let mb := n.bits - 5 - r
    let m : Int := if 0 < mb then F64.floor (F64.scaleUp lFrac mb) else 0
    let p := ((if F64.signbit x then 2 ^ (n.bits - 1) else 0) ||| (if 0 ≤ l then 2 ^ (n.bits - 2) else 0)
      ||| r * 2 ^ (n.bits - 5) ||| (c % 2 ^ r).toNat * 2 ^ mb ||| (m % 2 ^ mb).toNat) % 2 ^ n.bits
    exec (.encode bits x) s = .next { s with responses := s.responses
      ++ [{ status := .ok, nar := false, dout := (BitVec.ofNat n.bits p).signExtend 64,
            cfg := ⟨0, 0, 0, 0, 0, 0, 0, 0⟩ }] }

/-- After `LN64`, ENCODE computes without any rounding error: the doubling, the remainder and the scaled floor are the exact
mathematical ones (43_encoder.md steps 3 and 7, what the spec says there of exactness; only P1 is used of the logarithm). -/
def Obligations.EncodeIsExactAfterTheLogarithm : Prop :=
  ∀ (ln : F64 → F64), LogLimits ln → ∀ x : F64, finiteNonzero x = true →
    let lExact := exactLog ln x
    let l := clampedLog lExact
    F64.scaled lExact = 2 * F64.scaled (ln (F64.fabs x))
    ∧ F64.scaled (fractionalLog lExact l) = |F64.scaled lExact| - |l| * 2 ^ 1074
    ∧ ∀ mb : Nat, 0 < mb → mb ≤ 59 →
        mantissa (fractionalLog lExact l) mb = (|F64.scaled lExact| - |l| * 2 ^ 1074) * 2 ^ mb / 2 ^ 1074

/-- The remainder lies in `[-1/2, 1/2]` when `l` was not clamped, and in `[1/2, 1793)` when it was (43_encoder.md step 3 and
its clamped case, 45_properties.md on ranges; that 1/2 itself is reached when clamped, at the tie 255.5, is log 13; only P1 is
used of the logarithm). -/
def Obligations.FractionalLogStaysInItsRange : Prop :=
  ∀ (ln : F64 → F64), LogLimits ln → ∀ x : F64, finiteNonzero x = true →
    let lExact := exactLog ln x
    let l := clampedLog lExact
    let frac := F64.scaled (fractionalLog lExact l)
    (l = F64.roundHalfEven lExact → -(2 ^ 1073) ≤ frac ∧ frac ≤ 2 ^ 1073)
    ∧ (l ≠ F64.roundHalfEven lExact → 2 ^ 1073 ≤ frac ∧ frac < 1793 * 2 ^ 1074)

/-- The characteristic field in closed form, for every integer logarithm ENCODE can reach (43_encoder.md step 6, the table of
closed forms; the cut to `r` bits is decision D14). -/
def Obligations.CharacteristicFieldClosedForm : Prop :=
  ∀ l : Int, -255 ≤ l → l ≤ 255 →
    let r := (regimeOf l.natAbs).val
    let C : Int := lowBits (characteristic biasRomContents l (regimeOf l.natAbs)) r
    C = if l = 0 then 0 else if l = 255 then 0 else if l = -255 then 127
        else if 0 < l then l - (2 ^ r - 1) else 2 ^ (r + 1) - 2 - |l|

/-- The word of `-x` is the word of `x` with the sign bit flipped, and no other bit (43_encoder.md, the properties that follow
from the steps: sign symmetry; field cuts and overlap are decisions D14, D15). -/
def Obligations.EncodeSignSymmetry : Prop :=
  ∀ (ln : F64 → F64) (n : Width) (x : F64), finiteNonzero x = true →
    encodeFinite biasRomContents ln n (F64.neg x) = encodeFinite biasRomContents ln n x ^^^ 2 ^ (n.bits - 1)

/-- The word of a finite non-zero value is a word of `n` bits that is neither zero nor NaR, at every width, whatever the
logarithm (43_encoder.md, the properties that follow from the steps; overlap is decision D15). -/
def Obligations.EncodeOfAFiniteValueIsAFiniteWord : Prop :=
  ∀ (ln : F64 → F64) (n : Width) (x : F64), finiteNonzero x = true →
    encodeFinite biasRomContents ln n x < 2 ^ n.bits ∧ encodeFinite biasRomContents ln n x ≠ 0
      ∧ encodeFinite biasRomContents ln n x ≠ 2 ^ (n.bits - 1)

/-- Where `|l_exact| <= 1/2` the sign of the logarithm is lost: a logarithm and its negation give the same parts, with
direction 1, regime 0 and characteristic 0 (43_encoder.md, the case `-0.5 <= l_exact < 0`). -/
def Obligations.LogarithmSignIsLostNearOne : Prop :=
  ∀ (n : Width) (s : Bool) (lExact : F64), 2 * F64.magnitude lExact ≤ 2 ^ 1074 →
    encodeParts biasRomContents n s lExact = encodeParts biasRomContents n s (F64.neg lExact)
    ∧ (encodeParts biasRomContents n s lExact).d = true ∧ (encodeParts biasRomContents n s lExact).r = 0
    ∧ (encodeParts biasRomContents n s lExact).c = 0

/-- The prefix property: the words at 16 and 32 bits are the leading bits of the word at 64 bits, and so is the word at 8 bits
when the regime is at most 3 (43_encoder.md, the prefix property; field cuts are decision D14; only P1 is used of the
logarithm). -/
def Obligations.NarrowWordsArePrefixesOfTheWideWord : Prop :=
  ∀ (ln : F64 → F64), LogLimits ln → ∀ x : F64, finiteNonzero x = true →
    encodeFinite biasRomContents ln .w16 x = encodeFinite biasRomContents ln .w64 x / 2 ^ 48
    ∧ encodeFinite biasRomContents ln .w32 x = encodeFinite biasRomContents ln .w64 x / 2 ^ 32
    ∧ ((regimeOf (clampedLog (exactLog ln x)).natAbs).val ≤ 3 →
        encodeFinite biasRomContents ln .w8 x = encodeFinite biasRomContents ln .w64 x / 2 ^ 56)

/-! ## DECODE -/

/-- DECODE of the NaR word answers `nar = 1` with the quiet NaN, of the zero word `+0.0`, with status OK; the bits of `data`
above the word do not count (44_decoder.md steps 1 and 2; decisions D8, D9, D10). -/
def Obligations.DecodeAnswersNarAndZeroInBand : Prop :=
  ∀ (n : Width) (bits : BitsOperand) (data : Data) (s : State), s.hardwired = true → bits.toNat = n.bits →
    (data.toNat % 2 ^ n.bits = 2 ^ (n.bits - 1) → exec (.decode bits data) s = .next { s with responses := s.responses
        ++ [{ status := .ok, nar := true, dout := 0x7FF8000000000000, cfg := ⟨0, 0, 0, 0, 0, 0, 0, 0⟩ }] })
    ∧ (data.toNat % 2 ^ n.bits = 0 → exec (.decode bits data) s = .next { s with responses := s.responses
        ++ [{ status := .ok, nar := false, dout := 0x0000000000000000, cfg := ⟨0, 0, 0, 0, 0, 0, 0, 0⟩ }] })

/-- DECODE of a finite word answers status OK, `nar = 0` and the value that steps 3 to 7 give, with no `cfg`, and changes
nothing else (44_decoder.md steps 2 to 7; field extraction at overlaps and the roundings are decisions D15, D11; `EXP64` is
free but for its limits, log 2). -/
def Obligations.DecodeFollowsItsSteps : Prop :=
  ∀ (n : Width) (bits : BitsOperand) (data : Data) (s : State), s.hardwired = true → bits.toNat = n.bits →
    let u := data.toNat % 2 ^ n.bits
    u ≠ 0 → u ≠ 2 ^ (n.bits - 1) →
    let S := u / 2 ^ (n.bits - 1) % 2
    let D := u / 2 ^ (n.bits - 2) % 2
    let r := u / 2 ^ (n.bits - 5) % 8
    let mb := n.bits - 5 - r
    let C := u / 2 ^ mb % 2 ^ r
    let M := u % 2 ^ mb
    let bias : Int := 2 ^ (r + 1) - 1
    let l : Int := if D = 1 then (if r = 0 then 0 else bias + C) else (if r = 0 then -1 else C - bias)
    let lFloat := if 0 < mb then F64.addInt (F64.fractionOf M mb) l else F64.ofInt l
    let mag := EXP64 (F64.half lFloat)
    exec (.decode bits data) s = .next { s with responses := s.responses
      ++ [{ status := .ok, nar := false, dout := if S = 1 then 0x8000000000000000 ||| mag else mag,
            cfg := ⟨0, 0, 0, 0, 0, 0, 0, 0⟩ }] }

/-- DECODE reads exactly the low `n` bits of `data`: copies of a word that differ above them decode alike (30_encoding.md
section 2, 44_decoder.md step 2; decision D8). -/
def Obligations.DecodeIgnoresTheUpperBits : Prop :=
  ∀ (n : Width) (bits : BitsOperand) (data data' : Data) (s : State), bits.toNat = n.bits →
    data.setWidth n.bits = data'.setWidth n.bits → exec (.decode bits data) s = exec (.decode bits data') s

/-- The integer logarithm of a word's fields, with the biased form never negative (44_decoder.md R86). -/
def Obligations.DecodedLogFormula : Prop :=
  ∀ f : WordFields, f.C ≤ 2 ^ f.r.val - 1 →
    (f.D = true → f.r = 0 → decodedLog biasRomContents f = 0)
    ∧ (f.D = true → 0 < f.r.val → decodedLog biasRomContents f = (2 ^ (f.r.val + 1) - 1) + (f.C : Int))
    ∧ (f.D = false → f.r = 0 → decodedLog biasRomContents f = -1)
    ∧ (f.D = false → 0 < f.r.val → decodedLog biasRomContents f = (f.C : Int) - (2 ^ (f.r.val + 1) - 1))
    ∧ 0 ≤ biasedLog biasRomContents f

/-- Every word of every width has its integer logarithm in `[-255, 382]`; by direction and regime it lies in the table's ranges
(44_decoder.md, the ranges of `l`). -/
def Obligations.DecodedLogStaysInItsRange : Prop :=
  ∀ (n : Width) (u : Nat), u < 2 ^ n.bits →
    let f := unpack n u
    let l := decodedLog biasRomContents f
    (-255 ≤ l ∧ l ≤ 382)
    ∧ (f.D = true → 0 < f.r.val → 2 ^ (f.r.val + 1) - 1 ≤ l ∧ l ≤ 2 ^ (f.r.val + 1) + 2 ^ f.r.val - 2)
    ∧ (f.D = false → 0 < f.r.val → -(2 ^ (f.r.val + 1) - 1) ≤ l ∧ l ≤ -(2 ^ f.r.val))

/-- With direction 0 every integer from -255 to -1 is the logarithm of exactly one regime and characteristic (44_decoder.md,
the ranges of `l`). -/
def Obligations.EveryNegativeLogIsReachedOnce : Prop :=
  ∀ l : Int, -255 ≤ l → l ≤ -1 →
    ∃ r : Regime, ∃ C : Nat, C < 2 ^ r.val
      ∧ decodedLog biasRomContents { S := false, D := false, r := r, C := C, M := 0 } = l
      ∧ ∀ (r' : Regime) (C' : Nat), C' < 2 ^ r'.val →
          decodedLog biasRomContents { S := false, D := false, r := r', C := C', M := 0 } = l → r' = r ∧ C' = C

/-- At widths 8, 16 and 32 `l_float` is exactly `l + M / 2^m_bits` (44_decoder.md step 6). -/
def Obligations.FloatLogIsExactBelowWidth64 : Prop :=
  ∀ (n : Width) (u : Nat), n ≠ .w64 → u < 2 ^ n.bits →
    let f := unpack n u
    F64.scaled (decodedFloatLog biasRomContents n f) * 2 ^ mbits n f.r
      = (decodedLog biasRomContents f * 2 ^ mbits n f.r + f.M) * 2 ^ 1074

/-- The argument of `EXP64` is always a binary64 value in `[-127.5, 191.5]`, at every width and for every word (44_decoder.md
step 7 and the ranges of `l`). -/
def Obligations.ExponentialArgumentStaysInItsDomain : Prop :=
  ∀ (n : Width) (u : Nat), u < 2 ^ n.bits →
    F64.inExpDomain (F64.half (decodedFloatLog biasRomContents n (unpack n u))) = true

/-- DECODE of a finite word never gives a zero, a subnormal, an infinity or a NaN, and the sign of the value is the sign bit of
the word (44_decoder.md step 7; Q1 is used of `EXP64`, log 2). -/
def Obligations.DecodeOfAFiniteWordIsANormalValue : Prop :=
  ∀ (n : Width) (bits : BitsOperand) (data : Data) (s : State), s.hardwired = true → bits.toNat = n.bits →
    data.toNat % 2 ^ n.bits ≠ 0 → data.toNat % 2 ^ n.bits ≠ 2 ^ (n.bits - 1) →
    ∃ v : F64, exec (.decode bits data) s = .next { s with responses := s.responses
        ++ [{ status := .ok, nar := false, dout := v, cfg := ⟨0, 0, 0, 0, 0, 0, 0, 0⟩ }] }
      ∧ F64.isNormal v = true ∧ F64.signbit v = data.toNat.testBit (n.bits - 1)

/-- Flipping the sign bit of a finite word flips the sign of its value (44_decoder.md, sign symmetry; Q1 is used of the
exponential). -/
def Obligations.DecodeSignSymmetry : Prop :=
  ∀ (exp : F64 → F64), ExpLimits exp → ∀ (n : Width) (u : Nat), u < 2 ^ n.bits → u ≠ 0 → u ≠ 2 ^ (n.bits - 1) →
    decodeFinite biasRomContents exp n (u ^^^ 2 ^ (n.bits - 1)) = F64.neg (decodeFinite biasRomContents exp n u)

/-! ## ENCODE and DECODE together -/

/-- The composition law: what DECODE reads from the word ENCODE made, where the fields fit. The sign and the regime come back;
the integer logarithm comes back displaced; the mantissa holds the fraction of the remainder, floored (45_properties.md, the
composition law; ties and field cuts are decisions D13, D14; only P1 is used of the logarithm). -/
def Obligations.CompositionLaw : Prop :=
  ∀ (ln : F64 → F64), LogLimits ln → ∀ (n : Width) (x : F64), finiteNonzero x = true →
    let lExact := exactLog ln x
    let l := clampedLog lExact
    let r := regimeOf l.natAbs
    let frac := F64.scaled (fractionalLog lExact l)
    let f := unpack n (encodeFinite biasRomContents ln n x)
    fieldsFit n r = true →
      f.S = F64.signbit x ∧ f.r = r
      ∧ (l = 0 → decodedLog biasRomContents f = 0 ∧ frac = |F64.scaled lExact|)
      ∧ (1 ≤ l → l ≤ 254 → decodedLog biasRomContents f = l + 2 ^ r.val)
      ∧ (l = 255 → decodedLog biasRomContents f = 255)
      ∧ (-254 ≤ l → l ≤ -1 → decodedLog biasRomContents f = l - 1)
      ∧ (l = -255 → decodedLog biasRomContents f = -128)
      ∧ (0 ≤ frac → frac < 2 ^ 1074 → (f.M : Int) = frac * 2 ^ mbits n r / 2 ^ 1074)
      ∧ (frac < 0 → (f.M : Int) = (2 ^ 1074 + frac) * 2 ^ mbits n r / 2 ^ 1074)
      ∧ (2 ^ 1074 ≤ frac → (f.M : Int) = (frac % 2 ^ 1074) * 2 ^ mbits n r / 2 ^ 1074)

/-- The fixpoints of the round trip at every width: the zeros come back as `+0.0`, NaN and the infinities as NaR, `1.0` and
`-1.0` as themselves, and the word of `1.0` is `onePattern` (45_properties.md on the properties that hold, 40_config_resolver.md
on `onePattern`; P2 and Q2 are used; decisions D9, D10). -/
def Obligations.RoundTripFixpoints : Prop :=
  ∀ (n : Width) (bits : BitsOperand) (x : Data) (s : State), s.hardwired = true → bits.toNat = n.bits →
    ∃ w : Data, exec (.encode bits x) s = .next { s with responses := s.responses ++ [Response.data w] }
      ∧ (F64.isZero x = true → exec (.decode bits w) s = .next { s with responses := s.responses ++ [Response.data 0] })
      ∧ (F64.isFinite x = false →
          exec (.decode bits w) s = .next { s with responses := s.responses ++ [Response.narSentinel] })
      ∧ (x = 0x3FF0000000000000 → w = (s.cfgTab.read n).onePattern
          ∧ exec (.decode bits w) s = .next { s with responses := s.responses ++ [Response.data x] })
      ∧ (x = 0xBFF0000000000000 →
          exec (.decode bits w) s = .next { s with responses := s.responses ++ [Response.data x] })
end

