-- ==== Sys2Proof/Laws/Binary64.lean ====
section
/-! SUPPORT. What the binary64 operations do: the fields of an assembled pattern, and the one spec lemma of `F64.rn`. -/

namespace Sys2Proof

/-- The three fields of a pattern written as sign, exponent and fraction (30_encoding.md R38). -/
theorem F64.fields_of_pattern (b : Bool) (e f : Nat) (he : e < 2048) (hf : f < 2 ^ 52) :
    F64.exponent (BitVec.ofNat 64 ((if b then 2 ^ 63 else 0) + (e * 2 ^ 52 + f))) = e
      ∧ F64.fraction (BitVec.ofNat 64 ((if b then 2 ^ 63 else 0) + (e * 2 ^ 52 + f))) = f
      ∧ F64.signbit (BitVec.ofNat 64 ((if b then 2 ^ 63 else 0) + (e * 2 ^ 52 + f))) = b := by
  refine ⟨?_, ?_, ?_⟩
  · unfold F64.exponent
    rw [BitVec.extractLsb'_toNat, BitVec.toNat_ofNat, Nat.shiftRight_eq_div_pow]
    split <;> omega
  · unfold F64.fraction
    rw [BitVec.extractLsb'_toNat, BitVec.toNat_ofNat, Nat.shiftRight_eq_div_pow]
    split <;> omega
  · unfold F64.signbit
    rw [BitVec.msb_eq_decide, BitVec.toNat_ofNat]
    cases b <;> simp <;> omega

theorem F64.exponent_lt (x : F64) : F64.exponent x < 2048 := (x.extractLsb' 52 11).isLt

theorem F64.fraction_lt (x : F64) : F64.fraction x < 2 ^ 52 := (x.extractLsb' 0 52).isLt

/-- A magnitude that has at most 53 significant bits and is below 2^1024 is written exactly, and its pattern is finite. -/
theorem F64.assemble_spec (b : Bool) (m : Nat) (hdvd : 2 ^ (Nat.log2 m - 52) ∣ m) (hlt : Nat.log2 m < 2098) :
    F64.magnitude (F64.assemble b m) = m ∧ F64.signbit (F64.assemble b m) = b
      ∧ F64.isFinite (F64.assemble b m) = true := by
  by_cases hs : m < 2 ^ 52
  · have h1 : F64.magnitudeBits m = 0 * 2 ^ 52 + m := by unfold F64.magnitudeBits; rw [if_pos hs]; omega
    obtain ⟨he, hf, hb⟩ := F64.fields_of_pattern b 0 m (by omega) hs
    unfold F64.assemble
    rw [h1]
    exact ⟨by simp only [F64.magnitude, he, hf, if_true], hb, by simp only [F64.isFinite, he]; rfl⟩
  · obtain ⟨q, hq⟩ := hdvd
    have hm0 : m ≠ 0 := by omega
    have hlo : 2 ^ Nat.log2 m ≤ m := Nat.log2_self_le hm0
    have hhi : m < 2 ^ (Nat.log2 m + 1) := Nat.lt_log2_self
    have hL : 52 ≤ Nat.log2 m := (Nat.le_log2 hm0).2 (by omega)
    generalize Nat.log2 m = L at hq hlo hhi hL hlt ⊢
    obtain ⟨j, rfl⟩ : ∃ j, L = 52 + j := ⟨L - 52, by omega⟩
    have hj : 52 + j - 52 = j := by omega
    rw [hj] at hq
    have hpos : 0 < 2 ^ j := Nat.two_pow_pos j
    have hq1 : 2 ^ 52 ≤ q := by
      by_contra hc
      have : 2 ^ j * q < 2 ^ j * 2 ^ 52 := Nat.mul_lt_mul_of_pos_left (by omega) hpos
      rw [← hq, ← pow_add, Nat.add_comm j 52] at this
      omega
    have hq2 : q < 2 ^ 53 := by
      by_contra hc
      have : 2 ^ j * 2 ^ 53 ≤ 2 ^ j * q := Nat.mul_le_mul_left _ (by omega)
      rw [← hq, ← pow_add, show j + 53 = 52 + j + 1 by omega] at this
      omega
    have hlog : Nat.log2 m = 52 + j := (Nat.log2_eq_iff hm0).2 ⟨hlo, hhi⟩
    have h1 : F64.magnitudeBits m = (j + 1) * 2 ^ 52 + (q - 2 ^ 52) := by
      unfold F64.magnitudeBits
      rw [if_neg hs, hlog, show 52 + j - 51 = j + 1 by omega]
      simp only []
      rw [if_neg (by omega), show j + 1 - 1 = j by omega, hq, Nat.mul_div_cancel_left q hpos]
    obtain ⟨he, hf, hb⟩ := F64.fields_of_pattern b (j + 1) (q - 2 ^ 52) (by omega) (by omega)
    unfold F64.assemble
    rw [h1]
    refine ⟨?_, hb, ?_⟩
    · simp only [F64.magnitude, he, hf]
      rw [if_neg (by omega), show 2 ^ 52 + (q - 2 ^ 52) = q by omega, show j + 1 - 1 = j by omega, hq, Nat.mul_comm]
    · simp only [F64.isFinite, he, bne_iff_ne, ne_eq]; omega

/-- Where the quotient is exact, rounding it changes nothing. -/
theorem divHalfEven_of_dvd (a b : Nat) (h : b ∣ a) (hb : 0 < b) : divHalfEven a b = a / b := by
  simp only [divHalfEven, Nat.mod_eq_zero_of_dvd h]
  rw [if_pos (by omega)]

/-- The rounded quotient is one of the two integers around the quotient, and the nearer of them. -/
theorem divHalfEven_spec (a b : Nat) (hb : 0 < b) :
    2 * a ≤ 2 * (divHalfEven a b * b) + b ∧ 2 * (divHalfEven a b * b) ≤ 2 * a + b
      ∧ (2 * a = 2 * (divHalfEven a b * b) + b ∨ 2 * (divHalfEven a b * b) = 2 * a + b → divHalfEven a b % 2 = 0) := by
  have h1 := Nat.div_add_mod a b
  have h2 := Nat.mod_lt a hb
  unfold divHalfEven
  simp only []
  generalize hq : a / b = q at *
  generalize a % b = t at *
  rw [Nat.mul_comm] at h1
  generalize hp : q * b = p at *
  have hp1 : (q + 1) * b = p + b := by rw [Nat.add_mul, hp]; omega
  split
  · rw [hp]; omega
  · split
    · rw [hp1]; omega
    · split
      · rw [hp]; omega
      · rw [hp1]; omega

/-- The rounded quotient by the unit in the last place has at most 53 bits, or is `2^53`. -/
theorem F64.significand_le (m k : Nat) : divHalfEven m (2 ^ F64.ulpExponent m k) ≤ 2 ^ 53 := by
  have hpos : 0 < 2 ^ F64.ulpExponent m k := Nat.two_pow_pos _
  have hm : m < 2 ^ (53 + F64.ulpExponent m k) :=
    lt_of_lt_of_le Nat.lt_log2_self (Nat.pow_le_pow_right (by omega) (by unfold F64.ulpExponent; omega))
  rw [pow_add] at hm
  have h2 := (divHalfEven_spec m _ hpos).2.1
  generalize 2 ^ F64.ulpExponent m k = b at *
  generalize divHalfEven m b = q at *
  by_contra hc
  have h3 : (2 ^ 53 + 1) * b ≤ q * b := Nat.mul_le_mul_right b (by omega)
  rw [Nat.add_mul] at h3
  omega

theorem pow_log2_sub_dvd (q j : Nat) (h : q ≤ 2 ^ 53) : 2 ^ (Nat.log2 (q * 2 ^ j) - 52) ∣ q * 2 ^ j := by
  rcases Nat.eq_zero_or_pos q with rfl | hq
  · simp
  rcases Nat.lt_or_ge (Nat.log2 (q * 2 ^ j) - 52) (j + 1) with hlt | hge
  · exact Dvd.dvd.mul_left (pow_dvd_pow 2 (by omega)) q
  · have hne : q * 2 ^ j ≠ 0 := by positivity
    have hlo := Nat.log2_self_le hne
    have h53 : q * 2 ^ j ≤ 2 ^ (53 + j) := by rw [pow_add]; exact Nat.mul_le_mul_right _ h
    have hL : Nat.log2 (q * 2 ^ j) ≤ 53 + j := (Nat.pow_le_pow_iff_right (by omega)).1 (le_trans hlo h53)
    have hL' : Nat.log2 (q * 2 ^ j) = 53 + j := by omega
    rw [hL'] at hlo
    have : q * 2 ^ j = 2 ^ (53 + j) := le_antisymm h53 hlo
    rw [hL', this]
    exact pow_dvd_pow 2 (by omega)

/-- The spec lemma of `F64.rn`: below the overflow threshold the result is finite, has the sign of `z`, and its magnitude is
the quotient by the unit in the last place, rounded to nearest even (00_scope.md R8). -/
theorem F64.rn_spec (z : Int) (k : Nat)
    (h : divHalfEven z.natAbs (2 ^ F64.ulpExponent z.natAbs k) * 2 ^ (F64.ulpExponent z.natAbs k + 1074 - k) < 2 ^ 2098) :
    F64.isFinite (F64.rn z k) = true ∧ F64.signbit (F64.rn z k) = decide (z < 0)
      ∧ F64.magnitude (F64.rn z k)
        = divHalfEven z.natAbs (2 ^ F64.ulpExponent z.natAbs k) * 2 ^ (F64.ulpExponent z.natAbs k + 1074 - k) := by
  have hq := F64.significand_le z.natAbs k
  unfold F64.rn
  simp only []
  generalize divHalfEven z.natAbs (2 ^ F64.ulpExponent z.natAbs k) = q at *
  generalize F64.ulpExponent z.natAbs k + 1074 - k = j at *
  have hlog : Nat.log2 (q * 2 ^ j) < 2098 := by
    rcases Nat.eq_zero_or_pos (q * 2 ^ j) with h0 | h0
    · rw [h0]; decide
    · have hle := lt_of_le_of_lt (Nat.log2_self_le (Nat.pos_iff_ne_zero.1 h0)) h
      exact (pow_lt_pow_iff_right₀ (by omega)).1 hle
  obtain ⟨h1, h2, h3⟩ := F64.assemble_spec (decide (z < 0)) (q * 2 ^ j) (pow_log2_sub_dvd q j hq) hlog
  exact ⟨h3, h2, h1⟩

/-- `F64.rn` is exact where `z / 2^k` has at most 53 significant bits, none below 2^-1074, and is below 2^1024: the value of
the result is `z / 2^k`. -/
theorem F64.rn_exact (z : Int) (k : Nat) (hdvd : 2 ^ F64.ulpExponent z.natAbs k ∣ z.natAbs)
    (hlt : z.natAbs * 2 ^ 1074 < 2 ^ (2098 + k)) :
    F64.isFinite (F64.rn z k) = true ∧ F64.scaled (F64.rn z k) * 2 ^ k = z * 2 ^ 1074 := by
  obtain ⟨q, hq⟩ := hdvd
  have hu : k ≤ F64.ulpExponent z.natAbs k + 1074 := by unfold F64.ulpExponent; omega
  have hsig : divHalfEven z.natAbs (2 ^ F64.ulpExponent z.natAbs k) = q := by
    rw [divHalfEven_of_dvd _ _ ⟨q, hq⟩ (Nat.two_pow_pos _)]
    exact Nat.div_eq_of_eq_mul_right (Nat.two_pow_pos _) hq
  have hmag : q * 2 ^ (F64.ulpExponent z.natAbs k + 1074 - k) * 2 ^ k = z.natAbs * 2 ^ 1074 := by
    rw [mul_assoc, ← pow_add, Nat.sub_add_cancel hu, pow_add, ← mul_assoc]
    congr 1
    rw [mul_comm, ← hq]
  have hover : q * 2 ^ (F64.ulpExponent z.natAbs k + 1074 - k) < 2 ^ 2098 := by
    have hk : 0 < 2 ^ k := Nat.two_pow_pos k
    rw [← hmag, pow_add] at hlt
    exact lt_of_mul_lt_mul_right hlt (Nat.zero_le _)
  obtain ⟨hf, hs, hm⟩ := F64.rn_spec z k (by rw [hsig]; exact hover)
  rw [hsig] at hm
  refine ⟨hf, ?_⟩
  have hcast := congrArg (Nat.cast : Nat → Int) hmag
  simp only [Nat.cast_mul, Nat.cast_pow, Nat.cast_ofNat] at hcast
  unfold F64.scaled
  rw [hs, hm]
  simp only [Nat.cast_mul, Nat.cast_pow, Nat.cast_ofNat]
  by_cases hz : z < 0
  · simp only [hz, decide_true, if_true]
    rw [neg_mul, hcast, Int.ofNat_natAbs_of_nonpos (le_of_lt hz), neg_mul, neg_neg]
  · simp only [hz, decide_false, Bool.false_eq_true, if_false]
    rw [hcast, Int.natAbs_of_nonneg (by omega)]

/-- Clearing the sign bit clears the sign and keeps exponent and fraction (00_scope.md R8). -/
theorem F64.fabs_fields (x : F64) :
    F64.signbit (F64.fabs x) = false ∧ F64.exponent (F64.fabs x) = F64.exponent x
      ∧ F64.fraction (F64.fabs x) = F64.fraction x := by
  refine ⟨?_, ?_, ?_⟩
  · simp only [F64.signbit, F64.fabs, BitVec.msb_and, Bool.and_eq_false_iff]
    exact Or.inr (by decide)
  · unfold F64.exponent F64.fabs
    congr 1
    ext i hi
    simp only [BitVec.getElem_extractLsb', BitVec.getLsbD_and]
    have : (0x7FFFFFFFFFFFFFFF : BitVec 64).getLsbD (52 + i) = true := by interval_cases i <;> rfl
    rw [this, Bool.and_true]
  · unfold F64.fraction F64.fabs
    congr 1
    ext i hi
    simp only [BitVec.getElem_extractLsb', BitVec.getLsbD_and]
    have : (0x7FFFFFFFFFFFFFFF : BitVec 64).getLsbD (0 + i) = true := by interval_cases i <;> rfl
    rw [this, Bool.and_true]

/-- The magnitude of a finite value is at most 53 bits, shifted. -/
theorem F64.magnitude_form (x : F64) :
    ∃ q j, F64.magnitude x = q * 2 ^ j ∧ q < 2 ^ 53 ∧ j = F64.exponent x - 1 := by
  have := F64.fraction_lt x
  unfold F64.magnitude
  split
  · rename_i h
    exact ⟨F64.fraction x, 0, by rw [pow_zero, mul_one], by omega, by omega⟩
  · exact ⟨2 ^ 52 + F64.fraction x, F64.exponent x - 1, rfl, by omega, rfl⟩

/-- The magnitude of a value is the absolute value of what it stands for. -/
theorem F64.natAbs_scaled (x : F64) : (F64.scaled x).natAbs = F64.magnitude x := by
  unfold F64.scaled
  split <;> simp

end Sys2Proof
end

