-- ==== Sys2Proof/Laws/State.lean ====
section
/-! SUPPORT. The fields of the state after each update: one lemma a field, true by unfolding. -/

namespace Sys2Proof.Machine

@[simp] theorem State.deliver_biasRom (r : Response) (s : State) : (s.deliver r).biasRom = s.biasRom := rfl
@[simp] theorem State.deliver_cfgTab (r : Response) (s : State) : (s.deliver r).cfgTab = s.cfgTab := rfl
@[simp] theorem State.deliver_pending (r : Response) (s : State) : (s.deliver r).pending = s.pending := rfl
@[simp] theorem State.deliver_resetAsserted (r : Response) (s : State) : (s.deliver r).resetAsserted = s.resetAsserted := rfl
@[simp] theorem State.deliver_responses (r : Response) (s : State) : (s.deliver r).responses = s.responses ++ [r] := rfl

@[simp] theorem State.assertReset_biasRom (s : State) : s.assertReset.biasRom = s.biasRom := rfl
@[simp] theorem State.assertReset_cfgTab (s : State) : s.assertReset.cfgTab = s.cfgTab := rfl
@[simp] theorem State.assertReset_pending (s : State) : s.assertReset.pending = [] := rfl
@[simp] theorem State.assertReset_resetAsserted (s : State) : s.assertReset.resetAsserted = true := rfl
@[simp] theorem State.assertReset_responses (s : State) : s.assertReset.responses = s.responses := rfl

@[simp] theorem State.releaseReset_biasRom (s : State) : s.releaseReset.biasRom = biasRomContents := rfl
@[simp] theorem State.releaseReset_cfgTab (s : State) : s.releaseReset.cfgTab = cfgTableContents := rfl
@[simp] theorem State.releaseReset_pending (s : State) : s.releaseReset.pending = [] := rfl
@[simp] theorem State.releaseReset_resetAsserted (s : State) : s.releaseReset.resetAsserted = false := rfl
@[simp] theorem State.releaseReset_responses (s : State) : s.releaseReset.responses = s.responses := rfl

@[simp] theorem State.offerFirst_biasRom (q : Request) (s : State) : (s.offerFirst q).biasRom = s.biasRom := rfl
@[simp] theorem State.offerFirst_cfgTab (q : Request) (s : State) : (s.offerFirst q).cfgTab = s.cfgTab := rfl
@[simp] theorem State.offerFirst_pending (q : Request) (s : State) : (s.offerFirst q).pending = q :: s.pending := rfl
@[simp] theorem State.offerFirst_resetAsserted (q : Request) (s : State) : (s.offerFirst q).resetAsserted = false := rfl
@[simp] theorem State.offerFirst_responses (q : Request) (s : State) : (s.offerFirst q).responses = s.responses := rfl

@[simp] theorem State.accept_biasRom (q : Request) (s : State) : (s.accept q).biasRom = s.biasRom := by
  unfold State.accept; split <;> rfl
@[simp] theorem State.accept_cfgTab (q : Request) (s : State) : (s.accept q).cfgTab = s.cfgTab := by
  unfold State.accept; split <;> rfl
@[simp] theorem State.accept_resetAsserted (q : Request) (s : State) : (s.accept q).resetAsserted = s.resetAsserted := by
  unfold State.accept; split <;> rfl
@[simp] theorem State.accept_responses (q : Request) (s : State) : (s.accept q).responses = s.responses := by
  unfold State.accept; split <;> rfl
theorem State.accept_pending (q : Request) (s : State) :
    (s.accept q).pending = if s.resetAsserted then s.pending else s.pending ++ [q] := by
  unfold State.accept; split <;> simp_all

end Sys2Proof.Machine
end

