-- ==== Sys2Proof/Laws/Ops.lean ====
section
/-! SUPPORT. What each shared operation, and each meaning, can do: one spec lemma each, cited instead of unfolded. -/

namespace Sys2Proof.Machine

/-- `return` delivers its response and does nothing else. -/
theorem State.answer_next (r : Response) (s t : State) (h : s.answer r = .next t) : t = s.deliver r := by
  unfold State.answer at h
  exact (Host.Outcome.next.inj h).symm

/-- `raise` delivers the error response and does nothing else. -/
theorem State.raise_next (e : Status) (s t : State) (h : s.raise e = .next t) : t = s.deliver (Response.error e) := by
  unfold State.raise at h
  exact (Host.Outcome.next.inj h).symm

/-- The request taken is the oldest one that waits, RESET is not asserted, and only the queue changes. -/
theorem State.takeRequest_some (s rest : State) (q : Request) (h : s.takeRequest = some (q, rest)) :
    s.resetAsserted = false ∧ s.pending = q :: rest.pending ∧ rest = { s with pending := rest.pending } := by
  unfold State.takeRequest at h
  split at h
  · cases h
  · rename_i hr
    split at h
    · cases h
    · rename_i q' tail hp
      cases h
      exact ⟨by simpa using hr, hp, rfl⟩

/-- No request is taken only when RESET is asserted or nothing waits. -/
theorem State.takeRequest_none (s : State) (h : s.takeRequest = none) : s.resetAsserted = true ∨ s.pending = [] := by
  unfold State.takeRequest at h
  split at h
  · exact .inl ‹_›
  · split at h
    · exact .inr ‹_›
    · cases h

/-- The four legal values of `bits`, and no other (30_encoding.md R44). -/
theorem widthOperand_eq_some (bits : BitsOperand) (n : Width) : widthOperand bits = some n ↔ bits.toNat = n.bits := by
  cases n <;> revert bits <;> decide +kernel

theorem widthOperand_eq_none (bits : BitsOperand) :
    widthOperand bits = none ↔ bits.toNat ≠ 8 ∧ bits.toNat ≠ 16 ∧ bits.toNat ≠ 32 ∧ bits.toNat ≠ 64 := by
  revert bits
  decide +kernel

/-- The legal indices of BIAS (30_encoding.md R44). -/
theorem indexOperand_eq_some (data : Data) (r : Regime) : indexOperand data = some r ↔ data.toNat = r.val := by
  unfold indexOperand
  split
  · simp [Fin.ext_iff]
  · have := r.isLt
    simp only [reduceCtorEq, false_iff]
    omega

theorem indexOperand_eq_none (data : Data) : indexOperand data = none ↔ 7 < data.toNat := by
  unfold indexOperand
  split <;> simp <;> omega

/-- The entries of the constant bias ROM (41_bias_rom.md R56). -/
theorem BiasRom.read_contents (r : Regime) : (BiasRom.read biasRomContents r).toNat = 2 ^ (r.val + 1) - 1 := by
  revert r
  decide +kernel

/-- The records of the constant configuration table (40_config_resolver.md R49). -/
theorem CfgTable.read_contents (n : Width) : CfgTable.read cfgTableContents n = cfgRecordOf n := by
  cases n <;> rfl

/-- What RESOLVE can do. -/
theorem execResolve_eq (bits : BitsOperand) (data : Data) (s : State) :
    execResolve bits data s = .next (s.deliver (match widthOperand bits with
      | none => Response.error .invalidWidth
      | some n => Response.config (s.cfgTab.read n))) := by
  unfold execResolve
  cases widthOperand bits <;> rfl

/-- What BIAS can do. -/
theorem execBias_eq (bits : BitsOperand) (data : Data) (s : State) :
    execBias bits data s = .next (s.deliver (match indexOperand data with
      | none => Response.error .outOfRange
      | some r => Response.data ((BiasRom.read s.biasRom r).setWidth 64))) := by
  unfold execBias
  cases indexOperand data <;> rfl

/-- What ENCODE can do. -/
theorem execEncode_eq (bits : BitsOperand) (data : Data) (s : State) :
    execEncode bits data s = .next (s.deliver (match widthOperand bits with
      | none => Response.error .invalidWidth
      | some n => Response.data (encodeResult s.biasRom (s.cfgTab.read n) LN64 n data))) := by
  unfold execEncode
  cases widthOperand bits <;> rfl

/-- What DECODE can do. -/
theorem execDecode_eq (bits : BitsOperand) (data : Data) (s : State) :
    execDecode bits data s = .next (s.deliver (match widthOperand bits with
      | none => Response.error .invalidWidth
      | some n => decodeResult s.biasRom (s.cfgTab.read n) EXP64 n (wordOperand n data))) := by
  unfold execDecode
  cases widthOperand bits <;> rfl

end Sys2Proof.Machine
end

