-- ==== Sys2Proof/Laws/PerInstr.lean ====
section
/-! SUPPORT. The statement family proved instruction by instruction: every field of a request word stands where
30_encoding.md R41 puts it. -/

namespace Sys2Proof.Laws

/-- The request word of `i` carries the operation code at 72:71, `bits` at 70:64 and `data` at 63:0 (30_encoding.md R41). -/
def FieldPlacement.Statement (i : Instr) : Prop :=
  Request.opField (encodeRequest i) = i.opCode ∧ Request.bitsField (encodeRequest i) = i.bitsOperand
    ∧ Request.dataField (encodeRequest i) = i.dataOperand

/-- The fields of a concatenated request word. -/
theorem fields_of_append (op : BitVec 2) (bits : BitsOperand) (data : Data) :
    Request.opField (op ++ bits ++ data) = op ∧ Request.bitsField (op ++ bits ++ data) = bits
      ∧ Request.dataField (op ++ bits ++ data) = data := by
  refine ⟨?_, ?_, ?_⟩
  · ext i hi
    simp only [Request.opField, BitVec.getElem_extractLsb', BitVec.getLsbD_append]
    rw [if_neg (by omega), if_neg (by omega), show 71 + i - 64 - 7 = i by omega, BitVec.getLsbD_eq_getElem hi]
  · ext i hi
    simp only [Request.bitsField, BitVec.getElem_extractLsb', BitVec.getLsbD_append]
    rw [if_neg (by omega), if_pos (by omega), show 64 + i - 64 = i by omega, BitVec.getLsbD_eq_getElem hi]
  · ext i hi
    simp only [Request.dataField, BitVec.getElem_extractLsb', BitVec.getLsbD_append]
    rw [if_pos (by omega), Nat.zero_add, BitVec.getLsbD_eq_getElem hi]

theorem FieldPlacement.resolve (bits : BitsOperand) (data : Data) : FieldPlacement.Statement (.resolve bits data) :=
  fields_of_append 0 bits data

theorem FieldPlacement.bias (bits : BitsOperand) (data : Data) : FieldPlacement.Statement (.bias bits data) :=
  fields_of_append 1 bits data

theorem FieldPlacement.encode (bits : BitsOperand) (data : Data) : FieldPlacement.Statement (.encode bits data) :=
  fields_of_append 2 bits data

theorem FieldPlacement.decode (bits : BitsOperand) (data : Data) : FieldPlacement.Statement (.decode bits data) :=
  fields_of_append 3 bits data

end Sys2Proof.Laws
end

