-- ==== Sys2Proof/Laws/Takum.lean ====
section
/-! SUPPORT. The small lemmas of the takum word: widths, the regime selector, the low bits of an integer. -/

namespace Sys2Proof.Machine

@[simp] theorem Width.bits_w8 : Width.w8.bits = 8 := rfl
@[simp] theorem Width.bits_w16 : Width.w16.bits = 16 := rfl
@[simp] theorem Width.bits_w32 : Width.w32.bits = 32 := rfl
@[simp] theorem Width.bits_w64 : Width.w64.bits = 64 := rfl

theorem mbits_le (n : Width) (r : Regime) : mbits n r ≤ 59 := by
  cases n <;> simp [mbits] <;> omega

/-- The regime of 0 is 0, and no other magnitude has it (43_encoder.md R69). -/
theorem regimeOf_eq_zero (l : Nat) : regimeOf l = 0 ↔ l = 0 := by
  constructor
  · intro h
    have h0 : min 7 (Nat.log2 (l + 1)) = 0 := congrArg Fin.val h
    by_contra hl
    have : 1 ≤ Nat.log2 (l + 1) := (Nat.le_log2 (by omega)).2 (by omega)
    omega
  · rintro rfl
    rfl

/-- The low bits of an integer are below the power of two. -/
theorem lowBits_lt (x : Int) (w : Nat) : lowBits x w < 2 ^ w := by
  have h1 : (0 : Int) < 2 ^ w := by positivity
  have h2 := Int.emod_lt_of_pos x h1
  have h3 := Int.emod_nonneg x (ne_of_gt h1)
  unfold lowBits
  zify
  rw [Int.toNat_of_nonneg h3]
  exact h2

/-- The low bits of an integer, as an integer (00_scope.md R7). -/
theorem lowBits_cast (x : Int) (w : Nat) : (lowBits x w : Int) = x % 2 ^ w := by
  have h1 : (0 : Int) < 2 ^ w := by positivity
  exact Int.toNat_of_nonneg (Int.emod_nonneg x (ne_of_gt h1))

theorem pack_lt (n : Width) (p : WordParts) : pack n p < 2 ^ n.bits :=
  Nat.mod_lt _ (Nat.two_pow_pos _)

end Sys2Proof.Machine
end

