-- ==== Sys2Proof/Tests/Slice0.lean ====
section
/-! SUPPORT. Tests. Expected values come from spec/: 95_test_vectors.md (vectors, traces, programs) unless a comment says
otherwise. The witnesses at the end meet the hypotheses of the statements. -/

-- The tests are checked one after another: each waits for the kernel, and waiting side by side takes a thread each.
set_option Elab.async false

namespace Sys2Proof.Tests

open Sys2Proof.Machine

/-! ## The operand checks (30_encoding.md R44, R45) -/

theorem test_wellFormed_accepts_legal_operands :
    (Instr.resolve 8 0).wellFormed ∧ (Instr.encode 16 0).wellFormed ∧ (Instr.decode 64 0).wellFormed
      ∧ (Instr.bias 99 7).wellFormed := by decide

theorem test_wellFormed_refuses_illegal_width :
    (Instr.resolve 12 0).wellFormed = false ∧ (Instr.encode 7 0).wellFormed = false
      ∧ (Instr.decode 0 0).wellFormed = false := by decide

theorem test_wellFormed_refuses_illegal_index :
    (Instr.bias 16 8).wellFormed = false ∧ (Instr.bias 16 0xFFFFFFFFFFFFFFFF).wellFormed = false := by decide

/-! ## Decoding: words written out from 30_encoding.md R41 and the programs of section 3 -/

/-- op 00, bits 0010000, data 0: RESOLVE 16 (program 1). -/
theorem test_decode_resolve : decodeTableWord 80 0x0100000000000000000 = some (.resolve 16 0) := by decide +kernel

/-- op 01, bits 1100011, data 7: BIAS 7 with bits = 99 (program 3). -/
theorem test_decode_bias : decodeTableWord 80 0x0E30000000000000007 = some (.bias 99 7) := by decide +kernel

/-- op 10, bits 0001000, data 4202A05F20000000: ENCODE.8 1.0e10 (program 4). -/
theorem test_decode_encode :
    decodeTableWord 80 0x1084202A05F20000000 = some (.encode 8 0x4202A05F20000000) := by decide +kernel

/-- op 11, bits 1000000, data 8000000000000000: DECODE.64 (program 3). -/
theorem test_decode_decode :
    decodeTableWord 80 0x1C08000000000000000 = some (.decode 64 0x8000000000000000) := by decide +kernel

theorem test_decode_rejects_wide_number : decode (2 ^ 73) = .error .widerThanRequest := by decide +kernel

/-- Programs 1 and 2, the words put together. -/
theorem test_encodeRequest :
    encodeRequest (.encode 16 0x3FF0000000000000) = 0x1103FF0000000000000
      ∧ encodeRequest (.decode 16 0x498B) = 0x190000000000000498B
      ∧ encodeRequest (.resolve 12 0) = 0x00C0000000000000000 ∧ encodeRequest (.bias 0 8) = 0x0800000000000000008 := by
  decide +kernel

/-! ## One step each (programs 1 and 3, sections 2.1 to 2.5) -/

/-- The state after reset with one request at the port. -/
def oneRequest (i : Instr) : State := State.reset.accept (encodeRequest i)

/-- The state after reset that has delivered one response. -/
def answered (r : Response) : State := State.reset.deliver r

theorem test_status_codes :
    Status.code .ok = 0b00 ∧ Status.code .invalidWidth = 0b01 ∧ Status.code .outOfRange = 0b10
      ∧ Status.code .outOfRangeRegime = 0b11 := by decide

theorem test_step_resolve :
    step (oneRequest (.resolve 16 0xDEADBEEF00000000))
      = .next (answered ⟨.ok, false, 0, ⟨1, 1, 3, 5, 11, 0xFFFFFFFFFFFF8000, 0, 0x4000⟩⟩) := rfl

theorem test_step_resolve_invalid_width :
    step (oneRequest (.resolve 24 0)) = .next (answered ⟨.invalidWidth, false, 0, CfgRecord.zero⟩) := rfl

theorem test_step_bias : step (oneRequest (.bias 99 7)) = .next (answered ⟨.ok, false, 0xFF, CfgRecord.zero⟩) := rfl

theorem test_step_bias_out_of_range :
    step (oneRequest (.bias 16 8)) = .next (answered ⟨.outOfRange, false, 0, CfgRecord.zero⟩) := rfl

/-- NaN in band; and the width is checked before the operand (60_exceptions.md R106). -/
theorem test_step_encode :
    step (oneRequest (.encode 8 0x7FF8000000000000)) = .next (answered ⟨.ok, false, 0xFFFFFFFFFFFFFF80, CfgRecord.zero⟩)
      ∧ step (oneRequest (.encode 7 0x7FF8000000000000))
        = .next (answered ⟨.invalidWidth, false, 0, CfgRecord.zero⟩) := ⟨rfl, rfl⟩

/-- The NaR word and the zero word, with bits set above them. -/
theorem test_step_decode :
    step (oneRequest (.decode 16 0x18000)) = .next (answered ⟨.ok, true, 0x7FF8000000000000, CfgRecord.zero⟩)
      ∧ step (oneRequest (.decode 8 0x8000)) = .next (answered ⟨.ok, false, 0, CfgRecord.zero⟩) := ⟨rfl, rfl⟩

/-! ## ENCODE words and DECODE logarithms, with the real function's value supplied (sections 2.4, 2.5) -/

/-- In order: -2.0 (sign, 64-bit mantissa), 4.0 (`l_frac < 0`), 1.0e300 and 1.0e-300 (`l` clamped), 1.0e10 and 1.0e-300 at
n = 8 (overlapping fields), RN(e^-0.25) (the tie). -/
theorem test_encode_words :
    encodeFinite biasRomContents (fun _ => 0x3FE62E42FEFA39EF) .w64 0xC000000000000000 = 0xC98B90BFBE8E7BC0
      ∧ encodeFinite biasRomContents (fun _ => 0x3FF62E42FEFA39EF) .w16 0x4010000000000000 = 0x518B
      ∧ encodeFinite biasRomContents (fun _ => 0x4085963447F87FB5) .w16 0x7E37E43C8800759C = 0x7808
      ∧ encodeFinite biasRomContents (fun _ => 0xC085963447F87FB5) .w16 0x01A56E1FC2F8F359 = 0x3FF8
      ∧ encodeFinite biasRomContents (fun _ => 0x4037069E2AA2AA5B) .w8 0x4202A05F20000000 = 0x6F
      ∧ encodeFinite biasRomContents (fun _ => 0xC085963447F87FB5) .w8 0x01A56E1FC2F8F359 = 0x7F
      ∧ encodeFinite biasRomContents (fun _ => 0xBFD0000000000000) .w16 0x3FE8EBEF9EAC820B = 0x4400 := by decide +kernel

/-- In order: 0x38 and 0x7F at width 8 (overlap: -199 and 382), the rows rounded at width 64 (-1.0 and 383.0), and 0xC98B at
width 16 with the exponential of its vector (the sign is set). -/
theorem test_decode_words :
    decodedFloatLog biasRomContents .w8 (unpack .w8 0x38) = 0xC068E00000000000
      ∧ decodedFloatLog biasRomContents .w8 (unpack .w8 0x7F) = 0x4077E00000000000
      ∧ decodedFloatLog biasRomContents .w64 (unpack .w64 0x0000000000000001) = 0xBFF0000000000000
      ∧ decodedFloatLog biasRomContents .w64 (unpack .w64 0x7FFFFFFFFFFFFFFF) = 0x4077F00000000000
      ∧ decodeFinite biasRomContents (fun t => if t = 0x3FFB160000000000 then 0x4015BD812106C6CF else 0) .w16 0xC98B
        = 0xC015BD812106C6CF := by decide +kernel

/-! ## Reset and idle (70_reset_and_hazards.md R113) -/

theorem test_reset_drops_pending : (oneRequest (.bias 0 1)).assertReset.releaseReset = State.reset := by decide +kernel

theorem test_idle_step : step State.reset = .next State.reset := rfl

/-! ## Witnesses: states and operands that meet the hypotheses of the statements -/

/-- The constant zero meets P1 and P2. -/
theorem witness_LogLimits : LogLimits (fun _ => F64.zero) := by
  have h : F64.allowedLog F64.zero = true := by decide +kernel
  exact ⟨fun _ _ _ => h, rfl⟩

/-- A logarithm that is one value everywhere but at 1.0. -/
def constLog (v : F64) (a : F64) : F64 := if a = F64.one then F64.zero else v

/-- It meets P1 and P2 when the value is one P1 allows. -/
theorem witness_constLog_LogLimits (v : F64) (hv : F64.allowedLog v = true) : LogLimits (constLog v) := by
  have h0 : F64.allowedLog F64.zero = true := by decide +kernel
  refine ⟨fun a _ _ => ?_, by simp [constLog]⟩
  unfold constLog
  split
  · exact h0
  · exact hv

/-- The constant one meets Q1 and Q2. -/
theorem witness_ExpLimits : ExpLimits (fun _ => F64.one) := by
  have h : F64.allowedExp F64.one = true := by decide +kernel
  exact ⟨fun _ _ => h, rfl⟩

/-- Every real has a rounding: the finite binary64 values are finitely many. -/
theorem exists_rounding (t : ℝ) : ∃ x : F64, IsRoundingOf t x := by
  have hzero : F64.isFinite F64.zero = true := by decide +kernel
  by_cases ht : t = 0
  · refine ⟨F64.zero, hzero, fun _ => rfl, fun y _ => ?_⟩
    have h : F64.scaled F64.zero = 0 := by decide +kernel
    rw [h, ht, Int.cast_zero, zero_mul, sub_zero, abs_zero]
    exact abs_nonneg _
  · obtain ⟨x, hx, hmin⟩ := Set.exists_min_image (fun x : F64 => F64.isFinite x = true)
      (fun x => |(F64.scaled x : ℝ) - t * 2 ^ 1074|) (Set.toFinite _) ⟨F64.zero, hzero⟩
    exact ⟨x, hx, fun h => absurd h ht, hmin⟩

/-- The default instantiations P3 and Q3 exist. -/
theorem witness_CorrectlyRoundedFunctionsAreAdmitted :
    (∃ ln : F64 → F64, RoundedLog ln) ∧ (∃ exp : F64 → F64, RoundedExp exp) := by
  choose f hf using exists_rounding
  exact ⟨⟨fun a => f (Real.log ((F64.scaled a : ℝ) / 2 ^ 1074)), fun _ _ _ => hf _⟩,
    ⟨fun t => f (Real.exp ((F64.scaled t : ℝ) / 2 ^ 1074)), fun _ _ => hf _⟩⟩

theorem witness_StepRunsTheOldestRequest :
    (oneRequest (.bias 0 1)).resetAsserted = false ∧ (oneRequest (.bias 0 1)).pending = [encodeRequest (.bias 0 1)]
      ∧ State.reset.pending = [] ∧ State.reset.assertReset.resetAsserted = true := by decide +kernel

theorem witness_ResetDropsPendingRequests :
    (oneRequest (.bias 0 1)).hardwired = true ∧ State.reset.assertReset.resetAsserted = true := by decide +kernel

theorem witness_StepKeepsInvariant :
    (oneRequest (.bias 0 7)).inv = true
      ∧ step (oneRequest (.bias 0 7)) = .next (answered ⟨.ok, false, 0xFF, CfgRecord.zero⟩) := ⟨by decide +kernel, rfl⟩

theorem witness_RequestsAreAnsweredInTheOrderOffered :
    (oneRequest (.bias 0 7)).hardwired = true ∧ (oneRequest (.bias 0 7)).resetAsserted = false := by decide +kernel

theorem witness_ExecChangesOnlyTheResponseRecord :
    exec (.bias 0 7) State.reset = .next (answered ⟨.ok, false, 0xFF, CfgRecord.zero⟩) := rfl

theorem witness_ResponseDependsOnTheRequestAlone :
    State.reset.hardwired = true ∧ (oneRequest (.bias 0 7)).assertReset.hardwired = true := by decide +kernel

/-- Widths next to the legal ones. -/
theorem witness_IllegalWidthAnswersInvalidWidth :
    ∀ bits ∈ [(0 : BitsOperand), 7, 9, 15, 17, 31, 33, 63, 65, 127],
      bits.toNat ≠ 8 ∧ bits.toNat ≠ 16 ∧ bits.toNat ≠ 32 ∧ bits.toNat ≠ 64 := by decide +kernel

/-- The hypotheses of the statements about RESOLVE, ENCODE and DECODE at a legal width, at each width. -/
theorem witness_legal_width :
    State.reset.hardwired = true ∧ (8 : BitsOperand).toNat = Width.w8.bits ∧ (16 : BitsOperand).toNat = Width.w16.bits
      ∧ (32 : BitsOperand).toNat = Width.w32.bits ∧ (64 : BitsOperand).toNat = Width.w64.bits := by decide +kernel

theorem witness_BiasAnswersTheEntry :
    State.reset.hardwired = true ∧ (0 : Data).toNat ≤ 7 ∧ (7 : Data).toNat ≤ 7 := by decide +kernel

theorem witness_BiasIndexAboveSeven : 7 < (8 : Data).toNat ∧ 7 < (0xFFFFFFFFFFFFFFFF : Data).toNat := by decide +kernel

theorem witness_UnpackUndoesPackWhereFieldsFit :
    fieldsFit .w8 3 = true ∧ fieldsFit .w16 7 = true ∧ fieldsFit .w32 0 = true ∧ fieldsFit .w64 7 = true := by decide

/-- Also the hypothesis of `SignExtensionKeepsTheWord` and `ExponentialArgumentStaysInItsDomain`. -/
theorem witness_PackUndoesUnpack : 0xFF < 2 ^ Width.w8.bits ∧ 0 < 2 ^ Width.w64.bits := by decide +kernel

/-- The largest finite value, and 0, are below the overflow threshold. -/
theorem witness_RoundingIsToNearestEven :
    (F64.scaled 0x7FEFFFFFFFFFFFFF).natAbs < (2 ^ 54 - 1) * 2 ^ (970 + 1074)
      ∧ (0 : Int).natAbs < (2 ^ 54 - 1) * 2 ^ (970 + 0) ∧ F64.isFinite F64.one = true := by decide +kernel

/-- The tie clause of `RoundingIsToNearestEven`: `2^53 + 1` lies half way between the values `2^53`, whose significand is even
and to which it is rounded, and `2^53 + 2`. -/
theorem witness_RoundingIsToNearestEven_tie :
    ((2 : Int) ^ 53 + 1).natAbs < (2 ^ 54 - 1) * 2 ^ (970 + 0) ∧ F64.isFinite 0x4340000000000001 = true
      ∧ F64.scaled (F64.rn (2 ^ 53 + 1) 0) = 2 ^ 53 * 2 ^ 1074 ∧ F64.scaled 0x4340000000000001 = (2 ^ 53 + 2) * 2 ^ 1074
      ∧ |F64.scaled (F64.rn (2 ^ 53 + 1) 0) * 2 ^ 0 - (2 ^ 53 + 1) * 2 ^ 1074|
        = |F64.scaled 0x4340000000000001 * 2 ^ 0 - (2 ^ 53 + 1) * 2 ^ 1074|
      ∧ F64.scaled 0x4340000000000001 ≠ F64.scaled (F64.rn (2 ^ 53 + 1) 0) := by decide +kernel

theorem witness_RealFunctionsMeetTheirLimitsAndNoMore :
    F64.signbit F64.one = false ∧ finiteNonzero F64.one = true ∧ F64.inExpDomain 0xC05FE00000000000 = true
      ∧ F64.inExpDomain 0x4067F00000000000 = true := by decide +kernel

/-- A NaN, both infinities and both zeros. -/
theorem witness_EncodeAnswersSpecialValuesInBand :
    F64.exponent 0x7FF0000000000001 = 0x7FF ∧ F64.exponent F64.posInf = 0x7FF ∧ F64.exponent F64.negInf = 0x7FF
      ∧ F64.isZero 0x0000000000000000 = true ∧ F64.isZero 0x8000000000000000 = true := by decide +kernel

/-- The smallest subnormal, the largest finite value and -1.0. -/
theorem witness_finiteNonzero :
    finiteNonzero 0x0000000000000001 = true ∧ finiteNonzero 0x7FEFFFFFFFFFFFFF = true ∧ finiteNonzero F64.minusOne = true := by
  decide +kernel

/-- Both clauses of the remainder's range for x = 2.0: `l_exact = 255.0` is not clamped, `l_exact = 255.5` is. -/
theorem witness_FractionalLogStaysInItsRange :
    F64.allowedLog 0x405FE00000000000 = true ∧ F64.allowedLog 0x405FF00000000000 = true
      ∧ finiteNonzero 0x4000000000000000 = true
      ∧ clampedLog (exactLog (constLog 0x405FE00000000000) 0x4000000000000000)
        = F64.roundHalfEven (exactLog (constLog 0x405FE00000000000) 0x4000000000000000)
      ∧ clampedLog (exactLog (constLog 0x405FF00000000000) 0x4000000000000000)
        ≠ F64.roundHalfEven (exactLog (constLog 0x405FF00000000000) 0x4000000000000000) := by decide +kernel

/-- The border scalings of the exactness statement. -/
theorem witness_EncodeIsExactAfterTheLogarithm :
    F64.allowedLog 0xC08FFFFFFFFFFFFF = true ∧ finiteNonzero 0x0000000000000001 = true
      ∧ 0 < mbits .w16 7 ∧ mbits .w64 0 = 59 := by decide +kernel

/-- `l_exact = -0.5` is at the border. -/
theorem witness_LogarithmSignIsLostNearOne : 2 * F64.magnitude 0xBFE0000000000000 ≤ 2 ^ 1074 := by decide +kernel

/-- x = 2.0 with its logarithm: regime 1. With `l_exact = 14` the regime is 3, the largest the clause about width 8 takes. -/
theorem witness_NarrowWordsArePrefixesOfTheWideWord :
    F64.allowedLog 0x3FE62E42FEFA39EF = true ∧ F64.allowedLog 0x401C000000000000 = true
      ∧ finiteNonzero 0x4000000000000000 = true
      ∧ (regimeOf (clampedLog (exactLog (constLog 0x3FE62E42FEFA39EF) 0x4000000000000000)).natAbs).val = 1
      ∧ (regimeOf (clampedLog (exactLog (constLog 0x401C000000000000) 0x4000000000000000)).natAbs).val = 3 := by
  decide +kernel

/-- A NaR word and a zero word with bits set above them, and the largest and smallest finite words. -/
theorem witness_decode_words :
    (0x18000 : Data).toNat % 2 ^ Width.w16.bits = 2 ^ (Width.w16.bits - 1) ∧ (0x10000 : Data).toNat % 2 ^ Width.w16.bits = 0
      ∧ (0xFFFF : Data).toNat % 2 ^ Width.w16.bits ≠ 0
      ∧ (0xFFFF : Data).toNat % 2 ^ Width.w16.bits ≠ 2 ^ (Width.w16.bits - 1)
      ∧ (0x0001 : Data).toNat % 2 ^ Width.w16.bits ≠ 2 ^ (Width.w16.bits - 1) := by decide +kernel

theorem witness_DecodeIgnoresTheUpperBits :
    (16 : BitsOperand).toNat = Width.w16.bits
      ∧ (0xFFFFFFFFFFFFC98B : Data).setWidth Width.w16.bits = (0xC98B : Data).setWidth Width.w16.bits := by decide +kernel

/-- One set of fields for each clause of R86, at the largest characteristic. -/
theorem witness_DecodedLogFormula :
    ∀ f ∈ [WordFields.mk false true 0 0 0, .mk false true 7 127 0, .mk false false 0 0 0, .mk false false 7 127 0],
      f.C ≤ 2 ^ f.r.val - 1 := by decide

/-- Words of both directions with a regime above 0. -/
theorem witness_DecodedLogStaysInItsRange :
    0x7FFF < 2 ^ Width.w16.bits ∧ (unpack .w16 0x7FFF).D = true ∧ 0 < (unpack .w16 0x7FFF).r.val
      ∧ (unpack .w16 0x3800).D = false ∧ 0 < (unpack .w16 0x3800).r.val := by decide +kernel

/-- The composition law: for each clause about `l`, a logarithm that gives it for x = 2.0, at the border values. -/
theorem witness_CompositionLaw_integer_logs :
    ∀ p ∈ [((0x3FD0000000000000 : F64), (0 : Int)), (0x3FE0000000000000, 1), (0x405FC00000000000, 254),
        (0x405FE00000000000, 255), (0x4060000000000000, 255), (0xBFE0000000000000, -1), (0xC05FC00000000000, -254),
        (0xC060000000000000, -255)],
      F64.allowedLog p.1 = true ∧ clampedLog (exactLog (constLog p.1) 0x4000000000000000) = p.2
        ∧ fieldsFit .w16 (regimeOf p.2.natAbs) = true := by decide +kernel

/-- The composition law: for each clause about the fraction, a logarithm that gives it for x = 2.0. -/
theorem witness_CompositionLaw_fractions :
    F64.scaled (fractionalLog 0x3FF62E42FEFA39EF (clampedLog 0x3FF62E42FEFA39EF)) ≥ 0
      ∧ F64.scaled (fractionalLog 0x40062E42FEFA39EF (clampedLog 0x40062E42FEFA39EF)) < 0
      ∧ F64.scaled (fractionalLog 0x4070000000000000 (clampedLog 0x4070000000000000)) = 2 ^ 1074
      ∧ exactLog (constLog 0x3FE62E42FEFA39EF) 0x4000000000000000 = 0x3FF62E42FEFA39EF
      ∧ exactLog (constLog 0x3FF62E42FEFA39EF) 0x4000000000000000 = 0x40062E42FEFA39EF
      ∧ exactLog (constLog 0x4060000000000000) 0x4000000000000000 = 0x4070000000000000 := by decide +kernel

/-- The border integers of the statements about the characteristic and the negative logarithms. -/
theorem witness_integer_logs : (-255 : Int) ≤ -255 ∧ (255 : Int) ≤ 255 ∧ (-1 : Int) ≤ -1 := by decide

/-- The widths and words of the statement about exact decoding. -/
theorem witness_FloatLogIsExactBelowWidth64 :
    Width.w32 ≠ .w64 ∧ 0xFFFFFFFF < 2 ^ Width.w32.bits ∧ Width.w8 ≠ .w64 ∧ 0xFF < 2 ^ Width.w8.bits := by decide +kernel

/-- The hypotheses of the sign symmetry of DECODE, with `witness_ExpLimits`: the words next to zero and NaR. -/
theorem witness_DecodeSignSymmetry :
    0x0001 < 2 ^ Width.w16.bits ∧ 0x0001 ≠ 2 ^ (Width.w16.bits - 1) ∧ 0x8001 < 2 ^ Width.w16.bits
      ∧ 0x8001 ≠ 2 ^ (Width.w16.bits - 1) := by decide +kernel

theorem witness_RoundTripFixpoints :
    State.reset.hardwired = true ∧ (16 : BitsOperand).toNat = Width.w16.bits ∧ F64.isZero 0x8000000000000000 = true
      ∧ F64.isFinite F64.negInf = false := by decide +kernel

end Sys2Proof.Tests
end

section
/-! PROOFS. The mantissa width of the configuration resolver (40_config_resolver.md R51). -/

namespace Sys2Proof.Machine

/-- Where the overhead and the characteristic fit, the mantissa fills the rest of the word (30_encoding.md R36). -/
theorem overhead_add_mbits {n : Width} {r : Regime} (hfit : 5 + r.val ≤ n.bits) : 5 + r.val + mbits n r = n.bits := by
  unfold mbits
  omega

/-- Where they leave no bit over, the subtraction of natural numbers stops at 0: the clamp of R51. -/
theorem mbits_eq_zero_of_le {n : Width} {r : Regime} (hfull : n.bits ≤ 5 + r.val) : mbits n r = 0 := by
  unfold mbits
  omega

/-- Settles O22, by whether the overhead and the characteristic fit in the word. -/
theorem mantissaWidthIsClamped : Obligations.MantissaWidthIsClamped := by
  intro n r
  rcases le_total (5 + r.val) n.bits with hfit | hfull
  · have hsum := overhead_add_mbits hfit
    rw [max_eq_right (by omega)]
    omega
  · rw [mbits_eq_zero_of_le hfull, max_eq_left (by omega), Nat.cast_zero]

end Sys2Proof.Machine
end

section
/-! PROOFS. The contents of the bias ROM (41_bias_rom.md R56). -/

namespace Sys2Proof.Machine

/-- Right after reset the bias ROM holds its hardwired constants (10_state.md R12, R23). -/
@[simp] theorem State.reset_biasRom : State.reset.biasRom = biasRomContents := rfl

/-- Settles O21: the ROM at reset is the hardwired one, whose entries `BiasRom.read_contents` gives. -/
theorem biasRomHoldsTheClosedForm : Obligations.BiasRomHoldsTheClosedForm := by
  intro r
  rw [State.reset_biasRom, BiasRom.read_contents]

end Sys2Proof.Machine
end

section
/-! PROOFS. The regime selector (42_regime_selector.md R60). -/

namespace Sys2Proof.Machine

/-- The model's highest set bit is Mathlib's logarithm, so the clamp alone separates `regimeOf` from it. -/
theorem regimeOf_val (lAbs : Nat) : (regimeOf lAbs).val = min 7 (Nat.log 2 (lAbs + 1)) :=
  congrArg (min 7) Nat.log2_eq_log_two

/-- Settles O23, by the two cases of R60: `regimeOf_eq_zero` at 0, and the clamped logarithm elsewhere. -/
theorem regimeIsTheClampedLogarithm : Obligations.RegimeIsTheClampedLogarithm := by
  intro lAbs
  split_ifs with hzero
  · exact congrArg Fin.val ((regimeOf_eq_zero lAbs).2 hzero)
  · exact regimeOf_val lAbs

end Sys2Proof.Machine
end

section
/-! PROOFS. The integer logarithm of a word's fields (44_decoder.md R86). -/

namespace Sys2Proof.Machine

/-- The bias of regime `r` as the integer that R86 computes with. -/
theorem BiasRom.intCast_read_contents (r : Regime) :
    ((BiasRom.read biasRomContents r).toNat : Int) = 2 ^ (r.val + 1) - 1 := by
  rw [BiasRom.read_contents, Nat.cast_sub Nat.one_le_two_pow]
  norm_cast

/-- At regime 0 the ROM is bypassed (41_bias_rom.md R58). -/
theorem biasedLog_of_regime_zero (rom : BiasRom) {f : WordFields} (hr : f.r = 0) : biasedLog rom f = 0 :=
  if_pos hr

theorem biasedLog_of_regime_pos {f : WordFields} (hr : 0 < f.r.val) :
    biasedLog biasRomContents f = 2 ^ (f.r.val + 1) - 1 - 1 - f.C := by
  rw [biasedLog, if_neg (Fin.pos_iff_ne_zero.1 hr), BiasRom.intCast_read_contents]

/-- Where the characteristic is no larger than its field, `bias - 1 - C` is at least `2^r - 1`. -/
theorem biasedLog_nonneg {f : WordFields} (hC : f.C ≤ 2 ^ f.r.val - 1) : 0 ≤ biasedLog biasRomContents f := by
  by_cases hr : f.r = 0
  · rw [biasedLog_of_regime_zero _ hr]
  · have hfield : (f.C : Int) + 1 ≤ 2 ^ f.r.val := by
      exact_mod_cast Nat.add_le_of_le_sub Nat.one_le_two_pow hC
    rw [biasedLog_of_regime_pos (Fin.pos_iff_ne_zero.2 hr), pow_succ]
    omega

/-- At regime 0 the ROM is bypassed in direction 1 too. -/
theorem decodedLog_nonnegative_of_regime_zero (rom : BiasRom) {f : WordFields} (hD : f.D = true) (hr : f.r = 0) :
    decodedLog rom f = 0 := by
  rw [decodedLog, if_pos hD, if_pos hr]

theorem decodedLog_nonnegative_of_regime_pos {f : WordFields} (hD : f.D = true) (hr : 0 < f.r.val) :
    decodedLog biasRomContents f = (2 ^ (f.r.val + 1) - 1) + (f.C : Int) := by
  rw [decodedLog, if_pos hD, if_neg (Fin.pos_iff_ne_zero.1 hr), BiasRom.intCast_read_contents]

/-- Direction 0 reads the logarithm off the biased form. -/
theorem decodedLog_negative (rom : BiasRom) {f : WordFields} (hD : f.D = false) :
    decodedLog rom f = -(biasedLog rom f + 1) := by
  rw [decodedLog, if_neg (ne_true_of_eq_false hD)]

theorem decodedLog_negative_of_regime_zero (rom : BiasRom) {f : WordFields} (hD : f.D = false) (hr : f.r = 0) :
    decodedLog rom f = -1 := by
  rw [decodedLog_negative rom hD, biasedLog_of_regime_zero rom hr, zero_add]

theorem decodedLog_negative_of_regime_pos {f : WordFields} (hD : f.D = false) (hr : 0 < f.r.val) :
    decodedLog biasRomContents f = (f.C : Int) - (2 ^ (f.r.val + 1) - 1) := by
  rw [decodedLog_negative _ hD, biasedLog_of_regime_pos hr]
  ring

/-- Settles O45: one lemma for each direction and regime of R86, and the bound on `C` for the biased form. -/
theorem decodedLogFormula : Obligations.DecodedLogFormula := fun _ hC =>
  ⟨decodedLog_nonnegative_of_regime_zero _, decodedLog_nonnegative_of_regime_pos,
    decodedLog_negative_of_regime_zero _, decodedLog_negative_of_regime_pos, biasedLog_nonneg hC⟩

end Sys2Proof.Machine
end

section
/-! PROOFS. The request word: its three fields determine it, and the decoder reads nothing else (30_encoding.md R41, R42). -/

namespace Sys2Proof

/-- A request is its three fields, put together. -/
theorem Request.append_fields (q : Request) : Request.opField q ++ Request.bitsField q ++ Request.dataField q = q := by
  ext i hi
  simp only [Request.opField, Request.bitsField, Request.dataField, BitVec.getElem_append, BitVec.getElem_extractLsb']
  split
  · rw [Nat.zero_add, BitVec.getLsbD_eq_getElem hi]
  · split
    · rw [show 64 + (i - 64) = i by omega, BitVec.getLsbD_eq_getElem hi]
    · rw [show 71 + (i - 64 - 7) = i by omega, BitVec.getLsbD_eq_getElem hi]

/-- The decoder keeps the three fields of a request, the ignored one too (30_encoding.md R42). -/
theorem decodeRequest_fields (q : Request) :
    (decodeRequest q).opCode = Request.opField q ∧ (decodeRequest q).bitsOperand = Request.bitsField q
      ∧ (decodeRequest q).dataOperand = Request.dataField q := by
  unfold decodeRequest
  generalize Request.opField q = op
  fin_cases op <;> exact ⟨rfl, rfl, rfl⟩

/-- Every instruction's word carries its fields, by `Laws.FieldPlacement`. -/
theorem encodeRequest_fields (i : Instr) : Laws.FieldPlacement.Statement i := by
  cases i with
  | resolve bits data => exact Laws.FieldPlacement.resolve bits data
  | bias bits data => exact Laws.FieldPlacement.bias bits data
  | encode bits data => exact Laws.FieldPlacement.encode bits data
  | decode bits data => exact Laws.FieldPlacement.decode bits data

theorem decodeRequest_encodeRequest (i : Instr) : decodeRequest (encodeRequest i) = i := by
  obtain ⟨hop, hbits, hdata⟩ := encodeRequest_fields i
  rw [decodeRequest, hop, hbits, hdata]
  cases i <;> rfl

/-- An instruction is its operation code and its two operands: they give its word, and the word gives it back. -/
theorem Instr.eq_of_fields {i j : Instr} (hop : i.opCode = j.opCode) (hbits : i.bitsOperand = j.bitsOperand)
    (hdata : i.dataOperand = j.dataOperand) : i = j := by
  have hword : encodeRequest i = encodeRequest j := by rw [encodeRequest, hop, hbits, hdata, encodeRequest]
  rw [← decodeRequest_encodeRequest i, hword, decodeRequest_encodeRequest]

theorem encodeRequest_decodeRequest (q : Request) : encodeRequest (decodeRequest q) = q := by
  obtain ⟨hop, hbits, hdata⟩ := decodeRequest_fields q
  rw [encodeRequest, hop, hbits, hdata, Request.append_fields]

/-- Settles O1: the fields survive both directions, and they determine instruction and word. -/
theorem requestWordRoundTrip : Obligations.RequestWordRoundTrip :=
  ⟨decodeRequest_encodeRequest, encodeRequest_decodeRequest⟩

theorem Request.bitsField_eq_setWidth (q : Request) : (q >>> 64).setWidth 7 = Request.bitsField q := rfl

theorem Request.dataField_eq_setWidth (q : Request) : q.setWidth 64 = Request.dataField q :=
  BitVec.setWidth_eq_extractLsb' (by decide)

/-- The mask of the opcode table leaves the field `op` alone. -/
theorem Request.and_opMask (q : Request) : q &&& 0x1800000000000000000 = Request.opField q ++ (0 : BitVec 71) := by
  have hmask : (0x1800000000000000000 : Request) = BitVec.allOnes 2 ++ (0 : BitVec 71) := by decide
  ext i hi
  rw [hmask, BitVec.getElem_and, BitVec.getElem_append, BitVec.getElem_append]
  by_cases hlow : i < 71
  · simp [hlow]
  · have hi71 : 71 + (i - 71) = i := by omega
    rw [dif_neg hlow, dif_neg hlow, BitVec.getElem_allOnes, Bool.and_true, Request.opField, BitVec.getElem_extractLsb',
      hi71, BitVec.getLsbD_eq_getElem hi]

/-- A masked word is the row of an operation exactly when the word decodes to that operation with its own fields. -/
theorem Request.and_opMask_eq_iff {q row : Request} {i : Instr} {op : BitVec 2} (hcode : i.opCode = op)
    (hrow : op ++ (0 : BitVec 71) = row) (hbits : i.bitsOperand = Request.bitsField q) (hdata : i.dataOperand = Request.dataField q) :
    q &&& 0x1800000000000000000 = row ↔ decodeRequest q = i := by
  obtain ⟨hop', hbits', hdata'⟩ := decodeRequest_fields q
  rw [← hrow, ← hcode, Request.and_opMask]
  constructor
  · intro happend
    have hop : Request.opField q = i.opCode := by
      have hhigh := congrArg (BitVec.extractLsb' 71 2) happend
      simpa only [BitVec.extractLsb'_append_eq_left] using hhigh
    exact Instr.eq_of_fields (hop'.trans hop) (hbits'.trans hbits.symm) (hdata'.trans hdata.symm)
  · rintro rfl
    rw [hop']

/-- Settles O2: `Request.and_opMask_eq_iff` at each of the four operations. -/
theorem tableRowsSelectTheOperation : Obligations.TableRowsSelectTheOperation := by
  intro q
  have hbits := Request.bitsField_eq_setWidth q
  have hdata := Request.dataField_eq_setWidth q
  refine ⟨?_, ?_, ?_, ?_⟩
  · exact Request.and_opMask_eq_iff (i := .resolve _ _) (op := 0) rfl (by decide) hbits hdata
  · exact Request.and_opMask_eq_iff (i := .bias _ _) (op := 1) rfl (by decide) hbits hdata
  · exact Request.and_opMask_eq_iff (i := .encode _ _) (op := 2) rfl (by decide) hbits hdata
  · exact Request.and_opMask_eq_iff (i := .decode _ _) (op := 3) rfl (by decide) hbits hdata

/-- Settles O3, by running the decoder on the four words. -/
theorem specRequestWordsDecode : Obligations.SpecRequestWordsDecode := ⟨rfl, rfl, rfl, rfl⟩

theorem decode_of_lt {w : Nat} (hfits : w < 2 ^ 73) : decode w = .ok (decodeRequest (BitVec.ofNat 73 w)) := if_pos hfits

theorem decode_of_le {w : Nat} (hwide : 2 ^ 73 ≤ w) : decode w = .error .widerThanRequest := if_neg (Nat.not_lt.2 hwide)

/-- Settles O4, by the two branches of the decoder. -/
theorem numbersThatFitThePortDecode : Obligations.NumbersThatFitThePortDecode := fun _ =>
  ⟨fun hfits => ⟨_, decode_of_lt hfits⟩, decode_of_le⟩

/-- A table word names the request that its low 73 bits are (log 9). -/
theorem decodeTableWord_eq (nbits w : Nat) :
    decodeTableWord nbits w = some (decodeRequest (BitVec.ofNat 73 (w % 2 ^ nbits))) := by
  have hfits : w % 2 ^ nbits % 2 ^ 73 < 2 ^ 73 := Nat.mod_lt _ (Nat.two_pow_pos 73)
  have hwires : BitVec.ofNat 73 (w % 2 ^ nbits % 2 ^ 73) = BitVec.ofNat 73 (w % 2 ^ nbits) :=
    BitVec.eq_of_toNat_eq (by simp only [BitVec.toNat_ofNat, Nat.mod_mod])
  rw [decodeTableWord, decode_of_lt hfits, hwires]

end Sys2Proof
end

section
/-! PROOFS. One spec lemma for every transaction: the response is a function of the two tables and the instruction, and
delivering it is all that happens (10_state.md R11, R22). -/

namespace Sys2Proof.Machine

/-- The response of an operation that checks its width before anything else (60_exceptions.md R101, R106). -/
def answerAtWidth (bits : BitsOperand) (respond : Width → Response) : Response :=
  match widthOperand bits with
  | none => Response.error .invalidWidth
  | some n => respond n

/-- The response of BIAS (41_bias_rom.md R57). -/
def biasResponse (rom : BiasRom) (data : Data) : Response :=
  match indexOperand data with
  | none => Response.error .outOfRange
  | some r => Response.data ((BiasRom.read rom r).setWidth 64)

/-- The response of an instruction over the two tables; `exec_eq_deliver` ties it to `exec`. -/
def responseOf (rom : BiasRom) (tab : CfgTable) : Instr → Response
  | .resolve bits _ => answerAtWidth bits fun n => Response.config (tab.read n)
  | .bias _ data => biasResponse rom data
  | .encode bits x => answerAtWidth bits fun n => Response.data (encodeResult rom (tab.read n) LN64 n x)
  | .decode bits data => answerAtWidth bits fun n => decodeResult rom (tab.read n) EXP64 n (wordOperand n data)

/-- What every transaction does. -/
theorem exec_eq_deliver (i : Instr) (s : State) :
    exec i s = .next (s.deliver (responseOf s.biasRom s.cfgTab i)) := by
  cases i with
  | resolve bits data => exact execResolve_eq bits data s
  | bias bits data => exact execBias_eq bits data s
  | encode bits data => exact execEncode_eq bits data s
  | decode bits data => exact execDecode_eq bits data s

theorem answerAtWidth_of_legal {bits : BitsOperand} {n : Width} (hn : bits.toNat = n.bits) (respond : Width → Response) :
    answerAtWidth bits respond = respond n := by
  rw [answerAtWidth, (widthOperand_eq_some bits n).2 hn]

theorem answerAtWidth_of_illegal {bits : BitsOperand} (hn : widthOperand bits = none) (respond : Width → Response) :
    answerAtWidth bits respond = Response.error .invalidWidth := by
  rw [answerAtWidth, hn]

theorem biasResponse_of_legal {data : Data} {r : Regime} (hr : data.toNat = r.val) (rom : BiasRom) :
    biasResponse rom data = Response.data ((BiasRom.read rom r).setWidth 64) := by
  rw [biasResponse, (indexOperand_eq_some data r).2 hr]

theorem biasResponse_of_illegal {data : Data} (hr : 7 < data.toNat) (rom : BiasRom) :
    biasResponse rom data = Response.error .outOfRange := by
  rw [biasResponse, (indexOperand_eq_none data).2 hr]

/-- The width check and the width operand accept the same values (30_encoding.md R44). -/
theorem legalWidth_eq_isSome (bits : BitsOperand) : legalWidth bits = (widthOperand bits).isSome := by
  revert bits
  decide +kernel

/-- The index check and the index operand accept the same values (30_encoding.md R44). -/
theorem legalIndex_eq_isSome (data : Data) : legalIndex data = (indexOperand data).isSome := by
  unfold legalIndex indexOperand
  split <;> simp <;> omega

theorem answerAtWidth_status_eq_ok_iff (bits : BitsOperand) {respond : Width → Response}
    (hok : ∀ n, (respond n).status = .ok) : (answerAtWidth bits respond).status = .ok ↔ legalWidth bits = true := by
  rw [legalWidth_eq_isSome, answerAtWidth]
  cases widthOperand bits with
  | none => simp [Response.error]
  | some n => simp [hok n]

theorem biasResponse_status_eq_ok_iff (rom : BiasRom) (data : Data) :
    (biasResponse rom data).status = .ok ↔ legalIndex data = true := by
  rw [legalIndex_eq_isSome, biasResponse]
  cases indexOperand data with
  | none => simp [Response.error]
  | some r => simp [Response.data, Response.ok]

/-- DECODE at a legal width answers with the NaR sentinel or with data (44_decoder.md R82, R89, R90). -/
theorem decodeResult_cases (rom : BiasRom) (cfg : CfgRecord) (exp : F64 → F64) (n : Width) (u : Nat) :
    decodeResult rom cfg exp n u = Response.narSentinel ∨ ∃ v, decodeResult rom cfg exp n u = Response.data v := by
  unfold decodeResult
  cases classOf (wordOperand n cfg.narPattern) u with
  | nar => exact .inl rfl
  | zero => exact .inr ⟨_, rfl⟩
  | finite => exact .inr ⟨_, rfl⟩

theorem decodeResult_status (rom : BiasRom) (cfg : CfgRecord) (exp : F64 → F64) (n : Width) (u : Nat) :
    (decodeResult rom cfg exp n u).status = .ok := by
  obtain hnar | ⟨v, hv⟩ := decodeResult_cases rom cfg exp n u
  · rw [hnar]; rfl
  · rw [hv]; rfl

theorem responseOf_status_eq_ok_iff (rom : BiasRom) (tab : CfgTable) (i : Instr) :
    (responseOf rom tab i).status = .ok ↔ i.wellFormed = true := by
  cases i with
  | resolve bits data => exact answerAtWidth_status_eq_ok_iff bits fun _ => rfl
  | bias bits data => exact biasResponse_status_eq_ok_iff rom data
  | encode bits data => exact answerAtWidth_status_eq_ok_iff bits fun _ => rfl
  | decode bits data => exact answerAtWidth_status_eq_ok_iff bits fun _ => decodeResult_status _ _ _ _ _

theorem Response.legal_data (v : Data) : (Response.data v).legal = true := rfl
theorem Response.legal_config (cfg : CfgRecord) : (Response.config cfg).legal = true := rfl
theorem Response.legal_narSentinel : Response.narSentinel.legal = true := by decide +kernel
theorem Response.legal_invalidWidth : (Response.error .invalidWidth).legal = true := by decide +kernel
theorem Response.legal_outOfRange : (Response.error .outOfRange).legal = true := by decide +kernel

/-- The reserved status is not legal (60_exceptions.md R103). -/
theorem Response.status_ne_reserved {r : Response} (hr : r.legal = true) : r.status ≠ .outOfRangeRegime := by
  intro hstatus
  rw [Response.legal, hstatus] at hr
  exact Bool.false_ne_true hr

theorem answerAtWidth_legal (bits : BitsOperand) {respond : Width → Response} (hlegal : ∀ n, (respond n).legal = true) :
    (answerAtWidth bits respond).legal = true := by
  unfold answerAtWidth
  cases widthOperand bits with
  | none => exact Response.legal_invalidWidth
  | some n => exact hlegal n

theorem biasResponse_legal (rom : BiasRom) (data : Data) : (biasResponse rom data).legal = true := by
  unfold biasResponse
  cases indexOperand data with
  | none => exact Response.legal_outOfRange
  | some r => exact Response.legal_data _

theorem decodeResult_legal (rom : BiasRom) (cfg : CfgRecord) (exp : F64 → F64) (n : Width) (u : Nat) :
    (decodeResult rom cfg exp n u).legal = true := by
  obtain hnar | ⟨v, hv⟩ := decodeResult_cases rom cfg exp n u
  · rw [hnar]; exact Response.legal_narSentinel
  · rw [hv]; exact Response.legal_data v

/-- Every response is one the block may give, whatever the tables hold. -/
theorem responseOf_legal (rom : BiasRom) (tab : CfgTable) (i : Instr) : (responseOf rom tab i).legal = true := by
  cases i with
  | resolve bits data => exact answerAtWidth_legal bits fun _ => Response.legal_config _
  | bias bits data => exact biasResponse_legal rom data
  | encode bits data => exact answerAtWidth_legal bits fun _ => Response.legal_data _
  | decode bits data => exact answerAtWidth_legal bits fun _ => decodeResult_legal _ _ _ _ _

theorem State.hardwired_iff (s : State) :
    s.hardwired = true ↔ s.biasRom = biasRomContents ∧ s.cfgTab = cfgTableContents := by
  simp [State.hardwired]

/-- The response of an instruction when the tables hold their constants. -/
abbrev hardwiredResponse (i : Instr) : Response := responseOf biasRomContents cfgTableContents i

theorem exec_of_hardwired {s : State} (hs : s.hardwired = true) (i : Instr) :
    exec i s = .next (s.deliver (hardwiredResponse i)) := by
  obtain ⟨hrom, htab⟩ := s.hardwired_iff.1 hs
  rw [exec_eq_deliver, hrom, htab]

/-- Settles O13: `exec_eq_deliver`, field by field. -/
theorem execChangesOnlyTheResponseRecord : Obligations.ExecChangesOnlyTheResponseRecord := by
  intro i s t hexec
  rw [exec_eq_deliver] at hexec
  obtain rfl := Host.Outcome.next.inj hexec
  exact ⟨rfl, rfl, rfl, rfl, _, rfl⟩

/-- Settles O14: the one response of `exec_eq_deliver`, with its status. -/
theorem statusIsOkExactlyForLegalOperands : Obligations.StatusIsOkExactlyForLegalOperands := fun i s =>
  ⟨responseOf s.biasRom s.cfgTab i, exec_eq_deliver i s, responseOf_status_eq_ok_iff _ _ i,
    Response.status_ne_reserved (responseOf_legal _ _ i)⟩

/-- Settles O15: hardwired tables leave the instruction as the only argument of the response. -/
theorem responseDependsOnTheRequestAlone : Obligations.ResponseDependsOnTheRequestAlone := fun i _ _ hs hs' =>
  ⟨hardwiredResponse i, exec_of_hardwired hs i, exec_of_hardwired hs' i⟩

/-- Settles O16: `execResolve` has no use for `data`, `execBias` none for `bits`. -/
theorem ignoredFieldsDoNotMatter : Obligations.IgnoredFieldsDoNotMatter := by
  refine ⟨fun bits data data' s => ?_, fun bits bits' data s => ?_⟩
  · rw [exec_eq_deliver, exec_eq_deliver, responseOf, responseOf]
  · rw [exec_eq_deliver, exec_eq_deliver, responseOf, responseOf]

/-- Settles O17: `answerAtWidth_of_illegal` for each of the three operations. -/
theorem illegalWidthAnswersInvalidWidth : Obligations.IllegalWidthAnswersInvalidWidth := by
  intro bits data s h8 h16 h32 h64
  have hnone : widthOperand bits = none := (widthOperand_eq_none bits).2 ⟨h8, h16, h32, h64⟩
  simp only [exec_eq_deliver, responseOf, answerAtWidth_of_illegal hnone]
  exact ⟨rfl, rfl, rfl⟩

/-- The configuration record as a response carries it, with the patterns at their width (40_config_resolver.md R49, R50). -/
theorem cfgRecordOf_eq (n : Width) : cfgRecordOf n =
    { signBits := 1, directionBits := 1, regimeBits := 3, overheadBits := 5,
      maxMantissaBits := BitVec.ofNat 6 (n.bits - 5),
      narPattern := (BitVec.ofNat n.bits (2 ^ (n.bits - 1))).signExtend 64,
      zeroPattern := 0,
      onePattern := (BitVec.ofNat n.bits (2 ^ (n.bits - 2))).setWidth 64 } := by
  cases n <;> decide +kernel

/-- Settles O18: the table holds `CFG(n)`. -/
theorem resolveAnswersTheConfiguration : Obligations.ResolveAnswersTheConfiguration := by
  intro n bits data s hs hn
  rw [exec_of_hardwired hs, hardwiredResponse, responseOf, answerAtWidth_of_legal hn, CfgTable.read_contents,
    cfgRecordOf_eq]
  rfl

/-- The bias on the 64-bit data port (41_bias_rom.md R57). -/
theorem setWidth_read_contents (r : Regime) :
    (BiasRom.read biasRomContents r).setWidth 64 = BitVec.ofNat 64 (2 ^ (r.val + 1) - 1) := by
  apply BitVec.eq_of_toNat_eq
  rw [BitVec.toNat_setWidth, BiasRom.read_contents, BitVec.toNat_ofNat]

/-- Settles O19: the index is the regime whose entry is read. -/
theorem biasAnswersTheEntry : Obligations.BiasAnswersTheEntry := by
  intro bits data s hs hdata
  have hread := setWidth_read_contents ⟨data.toNat, by omega⟩
  rw [exec_of_hardwired hs, hardwiredResponse, responseOf,
    biasResponse_of_legal (r := ⟨data.toNat, by omega⟩) rfl, hread]
  rfl

/-- Settles O20, by the index check. -/
theorem biasIndexAboveSevenAnswersOutOfRange : Obligations.BiasIndexAboveSevenAnswersOutOfRange := by
  intro bits data s hdata
  rw [exec_eq_deliver, responseOf, biasResponse_of_illegal hdata]
  rfl

end Sys2Proof.Machine
end

section
/-! PROOFS. The step, the queue and RESET: what one event at the port can do, and every run (10_state.md R21 to R24,
70_reset_and_hazards.md R113). -/

namespace Sys2Proof.Machine

theorem step_of_pending {s : State} {q : Request} {rest : List Request} (hreset : s.resetAsserted = false)
    (hpending : s.pending = q :: rest) : step s = exec (decodeRequest q) { s with pending := rest } := by
  rw [step, State.takeRequest, hreset, hpending]
  rfl

theorem step_of_no_request {s : State} (hpending : s.pending = []) : step s = .next s := by
  cases hreset : s.resetAsserted <;> simp [step, State.takeRequest, hreset, hpending]

theorem step_under_reset {s : State} (hreset : s.resetAsserted = true) : step s = .next s := by
  simp [step, State.takeRequest, hreset]

/-- Settles O5, one lemma for each clause. -/
theorem stepRunsTheOldestRequest : Obligations.StepRunsTheOldestRequest :=
  ⟨fun _ _ _ => step_of_pending, fun _ => step_of_no_request, fun _ => step_under_reset⟩

/-- Everything a step can do: nothing, or deliver a response and take its request off the queue while RESET is released. -/
theorem step_cases (s : State) : step s = .next s ∨
    ∃ q rest, s.resetAsserted = false ∧ s.pending = q :: rest ∧
      step s = .next (State.deliver (responseOf s.biasRom s.cfgTab (decodeRequest q)) { s with pending := rest }) := by
  rcases Bool.eq_false_or_eq_true s.resetAsserted with hreset | hreset
  · exact .inl (step_under_reset hreset)
  · cases hpending : s.pending with
    | nil => exact .inl (step_of_no_request hpending)
    | cons q rest => exact .inr ⟨q, rest, hreset, rfl, (step_of_pending hreset hpending).trans (exec_eq_deliver _ _)⟩

/-- Settles O6: the word stands at the head of the queue, with RESET released. -/
theorem offeredTableWordRunsNext : Obligations.OfferedTableWordRunsNext := fun s nbits w =>
  ⟨_, decodeTableWord_eq nbits w, step_of_pending (s := s.withFetchWord nbits w) rfl rfl⟩

/-- Settles O7, by evaluating the constants. -/
theorem resetLeavesTheTablesAndNothingPending : Obligations.ResetLeavesTheTablesAndNothingPending := by
  unfold Obligations.ResetLeavesTheTablesAndNothingPending
  decide +kernel

theorem State.accept_under_reset {s : State} (hreset : s.resetAsserted = true) (q : Request) : s.accept q = s := by
  rw [State.accept, if_pos hreset]

theorem State.accept_of_released {s : State} (hreset : s.resetAsserted = false) (q : Request) :
    s.accept q = { s with pending := s.pending ++ [q] } := by
  rw [State.accept, if_neg (ne_true_of_eq_false hreset)]

/-- Releasing RESET writes into hardwired tables what they hold. -/
theorem State.releaseReset_of_hardwired {s : State} (hs : s.hardwired = true) :
    s.releaseReset = { s with resetAsserted := false, pending := [] } := by
  obtain ⟨hrom, htab⟩ := s.hardwired_iff.1 hs
  rw [State.releaseReset, ← hrom, ← htab]

/-- Settles O8: the two ends of RESET, the port between them, and the first request after them. -/
theorem resetDropsPendingRequests : Obligations.ResetDropsPendingRequests := by
  refine ⟨fun s hs => ⟨rfl, State.releaseReset_of_hardwired (s := s.assertReset) hs⟩,
    fun s q hreset => State.accept_under_reset hreset q, fun s q => ?_⟩
  rw [State.accept_of_released s.releaseReset_resetAsserted]
  exact step_of_pending rfl rfl

/-- The three clauses of the invariant. -/
theorem State.inv_iff (s : State) : s.inv = true ↔
    s.hardwired = true ∧ (s.resetAsserted = true → s.pending = []) ∧ ∀ r ∈ s.responses, r.legal = true := by
  simp only [State.inv, Bool.and_eq_true, Bool.or_eq_true, Bool.not_eq_true', List.isEmpty_iff, List.all_eq_true, and_assoc]
  cases s.resetAsserted <;> simp

/-- Settles O9: the tables are the constants, and queue and record are empty. -/
theorem resetMeetsTheInvariant : Obligations.ResetMeetsTheInvariant :=
  (State.inv_iff _).2 ⟨(State.hardwired_iff _).2 ⟨rfl, rfl⟩, fun _ => rfl, fun _ hr => absurd hr List.not_mem_nil⟩

/-- Delivering a legal response, with any queue while RESET is released, keeps the invariant. -/
theorem State.inv_deliver {s : State} (hs : s.inv = true) (hreset : s.resetAsserted = false) {r : Response}
    (hr : r.legal = true) (queue : List Request) : (State.deliver r { s with pending := queue }).inv = true := by
  obtain ⟨htables, -, hlegal⟩ := s.inv_iff.1 hs
  refine (State.inv_iff _).2 ⟨htables, fun hasserted => absurd hasserted (ne_true_of_eq_false hreset), fun r' hr' => ?_⟩
  rcases List.mem_append.1 hr' with hold | hnew
  · exact hlegal r' hold
  · rw [List.mem_singleton.1 hnew]
    exact hr

/-- A step completes, and keeps the invariant. -/
theorem step_completes (s : State) : ∃ t, step s = .next t ∧ (s.inv = true → t.inv = true) := by
  obtain hidle | ⟨q, rest, hreset, -, hrun⟩ := step_cases s
  · exact ⟨s, hidle, id⟩
  · exact ⟨_, hrun, fun hs => State.inv_deliver hs hreset (responseOf_legal _ _ _) rest⟩

/-- Settles O10: `step_completes`, at the state the step gives. -/
theorem stepKeepsInvariant : Obligations.StepKeepsInvariant := by
  intro s t hs hstep
  obtain ⟨t', hstep', hkeeps⟩ := step_completes s
  obtain rfl := Host.Outcome.next.inj (hstep.symm.trans hstep')
  exact hkeeps hs

theorem State.inv_accept {s : State} (hs : s.inv = true) (q : Request) : (s.accept q).inv = true := by
  rcases Bool.eq_false_or_eq_true s.resetAsserted with hreset | hreset
  · rwa [State.accept_under_reset hreset]
  · obtain ⟨htables, -, hlegal⟩ := s.inv_iff.1 hs
    rw [State.accept_of_released hreset]
    exact (State.inv_iff _).2 ⟨htables, fun hasserted => absurd hasserted (ne_true_of_eq_false hreset), hlegal⟩

theorem State.inv_assertReset {s : State} (hs : s.inv = true) : s.assertReset.inv = true := by
  obtain ⟨htables, -, hlegal⟩ := s.inv_iff.1 hs
  exact (State.inv_iff _).2 ⟨htables, fun _ => rfl, hlegal⟩

theorem State.inv_releaseReset {s : State} (hs : s.inv = true) : s.releaseReset.inv = true := by
  obtain ⟨-, -, hlegal⟩ := s.inv_iff.1 hs
  exact (State.inv_iff _).2 ⟨(State.hardwired_iff _).2 ⟨rfl, rfl⟩, fun _ => rfl, hlegal⟩

/-- Every event at the port completes, and keeps the invariant. -/
theorem runEvent_completes (e : PortEvent) (s : State) :
    ∃ t, runEvent e s = .next t ∧ (s.inv = true → t.inv = true) := by
  cases e with
  | request q => exact ⟨_, rfl, fun hs => State.inv_accept hs q⟩
  | assertReset => exact ⟨_, rfl, State.inv_assertReset⟩
  | releaseReset => exact ⟨_, rfl, State.inv_releaseReset⟩
  | work => exact step_completes s

/-- Settles O11, by induction on the events. -/
theorem everyRunCompletesAndKeepsTheInvariant : Obligations.EveryRunCompletesAndKeepsTheInvariant := by
  intro es
  induction es with
  | nil => exact fun s => ⟨s, rfl, id⟩
  | cons e rest ih =>
    intro s
    obtain ⟨t, hevent, hkeeps⟩ := runEvent_completes e s
    obtain ⟨t', hrest, hkeeps'⟩ := ih t
    exact ⟨t', by rw [runEvents, hevent]; exact hrest, hkeeps' ∘ hkeeps⟩

/-- What the block answers right after reset is the response of the hardwired tables. -/
theorem responseTo_eq (q : Request) : responseTo q = hardwiredResponse (decodeRequest q) := by
  rw [responseTo, exec_eq_deliver]
  rfl

/-- Requests offered while RESET is released wait behind the earlier ones, in the order offered. -/
theorem foldl_accept (offered : List Request) {s : State} (hreset : s.resetAsserted = false) :
    offered.foldl (fun t q => t.accept q) s = { s with pending := s.pending ++ offered } := by
  induction offered generalizing s with
  | nil => rw [List.foldl_nil, List.append_nil]
  | cons q rest ih =>
    rw [List.foldl_cons, State.accept_of_released hreset, ih (s := { s with pending := s.pending ++ [q] }) hreset,
      List.append_assoc, List.singleton_append]

theorem run_of_step_next (M : Host.Core) {s t : M.State} (k : Nat) (hstep : M.step s = .next t) :
    M.run (k + 1) s = M.run k t := by
  rw [Host.Core.run, hstep]

/-- As many steps as requests wait answer them all, oldest first. -/
theorem run_answers_queue (queue : List Request) (s : State) (hs : s.hardwired = true) (hreset : s.resetAsserted = false)
    (hqueue : s.pending = queue) : Host.Core.run Sys2Proof.core queue.length s
      = .next { s with pending := [], responses := s.responses ++ queue.map responseTo } := by
  induction queue generalizing s with
  | nil =>
    have hsame : { s with pending := [], responses := s.responses ++ [].map responseTo } = s := by
      rw [List.map_nil, List.append_nil, ← hqueue]
    exact congrArg Host.Outcome.next hsame.symm
  | cons q rest ih =>
    have hstep : step s = .next (State.deliver (responseTo q) { s with pending := rest }) := by
      rw [step_of_pending hreset hqueue, exec_of_hardwired (s := { s with pending := rest }) hs, ← responseTo_eq]
    have hrest := ih (State.deliver (responseTo q) { s with pending := rest }) hs hreset rfl
    simp only [State.deliver, List.append_assoc, List.singleton_append, ← List.map_cons] at hrest
    exact (run_of_step_next Sys2Proof.core rest.length hstep).trans hrest

/-- Settles O12: the offered requests join the queue, and the run answers the queue. -/
theorem requestsAreAnsweredInTheOrderOffered : Obligations.RequestsAreAnsweredInTheOrderOffered := by
  intro s offered hs hreset
  have hrun := run_answers_queue (s.pending ++ offered) { s with pending := s.pending ++ offered } hs hreset rfl
  rw [List.length_append] at hrun
  exact (congrArg (Host.Core.run Sys2Proof.core _) (foldl_accept offered hreset)).trans hrun

end Sys2Proof.Machine
end

section
/-! PROOFS. The takum word bit by bit: where `pack` puts each field, and what `unpack` reads there (30_encoding.md R36, R47). -/

namespace Sys2Proof.Machine

theorem Width.eight_le_bits (n : Width) : 8 ≤ n.bits := by cases n <;> decide

theorem Width.bits_le (n : Width) : n.bits ≤ 64 := by cases n <;> decide

theorem fieldsFit_iff (n : Width) (r : Regime) : fieldsFit n r = true ↔ 5 + r.val ≤ n.bits := decide_eq_true_iff

/-- Settles O25: where the fields fit `overhead_add_mbits` is the sum, and only width 8 is too short for a regime. -/
theorem fieldsCoverTheWordExactlyWhenTheyFit : Obligations.FieldsCoverTheWordExactlyWhenTheyFit := by
  intro n r
  refine ⟨⟨fun hsum => ?_, fun hfit => ?_⟩, ?_⟩
  · rw [fieldsFit_iff]
    omega
  · have hsum := overhead_add_mbits ((fieldsFit_iff n r).1 hfit)
    omega
  · have hr := r.isLt
    rw [← Bool.not_eq_true, fieldsFit_iff]
    obtain ⟨hn, hbits⟩ | ⟨hn, hbits⟩ : n = .w8 ∧ n.bits = 8 ∨ n ≠ .w8 ∧ 16 ≤ n.bits := by cases n <;> decide
    · simp only [hn, true_and, Width.bits_w8]
      omega
    · simp only [hn, false_and, iff_false]
      omega

/-- The regime selector through the bounds of its logarithm. -/
theorem regimeOf_eq_iff (lAbs : Nat) (r : Regime) :
    regimeOf lAbs = r ↔ 2 ^ r.val ≤ lAbs + 1 ∧ (r.val < 7 → lAbs + 1 < 2 ^ (r.val + 1)) := by
  have hr := r.isLt
  have hval : (regimeOf lAbs).val = min 7 (Nat.log2 (lAbs + 1)) := rfl
  have hne : lAbs + 1 ≠ 0 := Nat.succ_ne_zero lAbs
  rw [← Nat.le_log2 hne, ← Nat.log2_lt hne, Fin.ext_iff, hval]
  omega

/-- Settles O24: `regimeOf_eq_iff`, with the bounds moved to `lAbs` itself. -/
theorem regimeOwnsItsRange : Obligations.RegimeOwnsItsRange := by
  intro lAbs r
  have hpos : 0 < 2 ^ r.val := Nat.two_pow_pos _
  rw [regimeOf_eq_iff, pow_succ]
  omega

/-- A field of `w` bits has none from `w` on. -/
theorem lowBits_testBit_of_le (x : Int) {w i : Nat} (hi : w ≤ i) : (lowBits x w).testBit i = false :=
  Nat.testBit_lt_two_pow (lt_of_lt_of_le (lowBits_lt x w) (Nat.pow_le_pow_right (by omega) hi))

theorem Regime.testBit_of_le (r : Regime) {i : Nat} (hi : 3 ≤ i) : r.val.testBit i = false :=
  Nat.testBit_lt_two_pow (lt_of_lt_of_le r.isLt (Nat.pow_le_pow_right (n := 2) (by omega) hi))

/-- Each field of a packed word at its position; where two overlap, they are ORed (30_encoding.md R47, decision D15). -/
theorem pack_testBit (n : Width) (p : WordParts) (i : Nat) : (pack n p).testBit i =
    (decide (i < n.bits) && (p.s && decide (i = n.bits - 1) || p.d && decide (i = n.bits - 2)
      || decide (n.bits - 5 ≤ i) && p.r.val.testBit (i - (n.bits - 5))
      || decide (mbits n p.r ≤ i) && (lowBits p.c p.r.val).testBit (i - mbits n p.r)
      || (lowBits p.m (mbits n p.r)).testBit i)) := by
  have hflag : ∀ (b : Bool) (k : Nat), (b.toNat <<< k).testBit i = (b && decide (i = k)) := by
    intro b k
    have hk : (k ≤ i ∧ i - k = 0) ↔ i = k := by omega
    rw [Nat.testBit_shiftLeft, Nat.testBit_bool_toNat, ← Bool.and_assoc, ← Bool.decide_and, Bool.and_comm]
    exact congrArg (b && ·) (decide_eq_decide.2 hk)
  simp only [pack, Nat.testBit_mod_two_pow, Nat.testBit_or, hflag, Nat.testBit_shiftLeft, ge_iff_le]

theorem unpack_r_val (n : Width) (u : Nat) : (unpack n u).r.val = u / 2 ^ (n.bits - 5) % 8 := by
  simp only [unpack, regimeField, Fin.val_ofNat, Nat.shiftRight_eq_div_pow]

theorem unpack_C (n : Width) (u : Nat) :
    (unpack n u).C = u / 2 ^ mbits n (unpack n u).r % 2 ^ (unpack n u).r.val := by
  simp only [unpack, Nat.and_two_pow_sub_one_eq_mod, Nat.shiftRight_eq_div_pow]

theorem unpack_M (n : Width) (u : Nat) : (unpack n u).M = u % 2 ^ mbits n (unpack n u).r := by
  simp only [unpack, Nat.and_two_pow_sub_one_eq_mod]

theorem unpack_C_lt (n : Width) (u : Nat) : (unpack n u).C < 2 ^ (unpack n u).r.val := by
  rw [unpack_C]
  exact Nat.mod_lt _ (Nat.two_pow_pos _)

theorem unpack_M_lt (n : Width) (u : Nat) : (unpack n u).M < 2 ^ mbits n (unpack n u).r := by
  rw [unpack_M]
  exact Nat.mod_lt _ (Nat.two_pow_pos _)

theorem unpack_r_testBit (n : Width) (u i : Nat) :
    (unpack n u).r.val.testBit i = (decide (i < 3) && u.testBit (n.bits - 5 + i)) := by
  rw [unpack_r_val, show (8 : Nat) = 2 ^ 3 from rfl, Nat.testBit_mod_two_pow, Nat.testBit_div_two_pow, Nat.add_comm]

theorem unpack_C_testBit (n : Width) (u i : Nat) : (unpack n u).C.testBit i
    = (decide (i < (unpack n u).r.val) && u.testBit (mbits n (unpack n u).r + i)) := by
  rw [unpack_C, Nat.testBit_mod_two_pow, Nat.testBit_div_two_pow, Nat.add_comm]

theorem unpack_M_testBit (n : Width) (u i : Nat) :
    (unpack n u).M.testBit i = (decide (i < mbits n (unpack n u).r) && u.testBit i) := by
  rw [unpack_M, Nat.testBit_mod_two_pow]

/-- A natural number below `2^w` is its own low bits. -/
theorem lowBits_of_lt {x w : Nat} (hx : x < 2 ^ w) : lowBits x w = x := by
  zify
  rw [lowBits_cast]
  exact Int.emod_eq_of_lt (by positivity) (by exact_mod_cast hx)

/-- The sign bit of a packed word is the sign, where the fields overlap too. -/
theorem pack_testBit_sign (n : Width) (p : WordParts) : (pack n p).testBit (n.bits - 1) = p.s := by
  have hn := Width.eight_le_bits n
  have hr := p.r.isLt
  have hrzero := Regime.testBit_of_le p.r (i := n.bits - 1 - (n.bits - 5)) (by omega)
  have hczero := lowBits_testBit_of_le p.c (w := p.r.val) (i := n.bits - 1 - mbits n p.r) (by unfold mbits; omega)
  have hmzero := lowBits_testBit_of_le p.m (w := mbits n p.r) (i := n.bits - 1) (by unfold mbits; omega)
  have hlast : n.bits - 1 < n.bits := by omega
  have hother : n.bits - 1 ≠ n.bits - 2 := by omega
  simp [pack_testBit, hrzero, hczero, hmzero, hlast, hother]

/-- Where the fields fit, the bit below is the direction. -/
theorem pack_testBit_direction {n : Width} {p : WordParts} (hfit : 5 + p.r.val ≤ n.bits) :
    (pack n p).testBit (n.bits - 2) = p.d := by
  have hn := Width.eight_le_bits n
  have hsum := overhead_add_mbits hfit
  have hrzero := Regime.testBit_of_le p.r (i := n.bits - 2 - (n.bits - 5)) (by omega)
  have hczero := lowBits_testBit_of_le p.c (w := p.r.val) (i := n.bits - 2 - mbits n p.r) (by omega)
  have hmzero := lowBits_testBit_of_le p.m (w := mbits n p.r) (i := n.bits - 2) (by omega)
  have hlast : n.bits - 2 < n.bits := by omega
  have hother : n.bits - 2 ≠ n.bits - 1 := by omega
  simp [pack_testBit, hrzero, hczero, hmzero, hlast, hother]

/-- Where the fields fit, the next three bits are the regime. -/
theorem pack_testBit_regime {n : Width} {p : WordParts} (hfit : 5 + p.r.val ≤ n.bits) {j : Nat} (hj : j < 3) :
    (pack n p).testBit (n.bits - 5 + j) = p.r.val.testBit j := by
  have hn := Width.eight_le_bits n
  have hsum := overhead_add_mbits hfit
  have hczero := lowBits_testBit_of_le p.c (w := p.r.val) (i := n.bits - 5 + j - mbits n p.r) (by omega)
  have hmzero := lowBits_testBit_of_le p.m (w := mbits n p.r) (i := n.bits - 5 + j) (by omega)
  have hlt : n.bits - 5 + j < n.bits := by omega
  have hsign : n.bits - 5 + j ≠ n.bits - 1 := by omega
  have hdirection : n.bits - 5 + j ≠ n.bits - 2 := by omega
  simp [pack_testBit, hczero, hmzero, hlt, hsign, hdirection]

/-- Where the fields fit, the characteristic stands below the regime. -/
theorem pack_testBit_characteristic {n : Width} {p : WordParts} (hfit : 5 + p.r.val ≤ n.bits) {j : Nat}
    (hj : j < p.r.val) : (pack n p).testBit (mbits n p.r + j) = (lowBits p.c p.r.val).testBit j := by
  have hsum := overhead_add_mbits hfit
  have hmzero := lowBits_testBit_of_le p.m (w := mbits n p.r) (i := mbits n p.r + j) (by omega)
  have hlt : mbits n p.r + j < n.bits := by omega
  have hsign : mbits n p.r + j ≠ n.bits - 1 := by omega
  have hdirection : mbits n p.r + j ≠ n.bits - 2 := by omega
  have hregime : ¬ n.bits - 5 ≤ mbits n p.r + j := by omega
  simp [pack_testBit, hmzero, hlt, hsign, hdirection, hregime]

/-- The mantissa stands below the characteristic. -/
theorem pack_testBit_mantissa {n : Width} {p : WordParts} {i : Nat} (hi : i < mbits n p.r) :
    (pack n p).testBit i = (lowBits p.m (mbits n p.r)).testBit i := by
  have hmb : mbits n p.r ≤ n.bits - 5 := by unfold mbits; omega
  have hlt : i < n.bits := by omega
  have hsign : i ≠ n.bits - 1 := by omega
  have hdirection : i ≠ n.bits - 2 := by omega
  have hregime : ¬ n.bits - 5 ≤ i := by omega
  have hchar : ¬ mbits n p.r ≤ i := by omega
  simp [pack_testBit, hlt, hsign, hdirection, hregime, hchar]

theorem unpack_pack_r {n : Width} {p : WordParts} (hfit : 5 + p.r.val ≤ n.bits) : (unpack n (pack n p)).r = p.r := by
  refine Fin.ext (Nat.eq_of_testBit_eq fun j => ?_)
  rw [unpack_r_testBit]
  by_cases hj : j < 3
  · rw [pack_testBit_regime hfit hj, decide_eq_true hj, Bool.true_and]
  · rw [decide_eq_false hj, Bool.false_and, Regime.testBit_of_le p.r (Nat.le_of_not_lt hj)]

theorem unpack_pack_C {n : Width} {p : WordParts} (hfit : 5 + p.r.val ≤ n.bits) :
    (unpack n (pack n p)).C = lowBits p.c p.r.val := by
  refine Nat.eq_of_testBit_eq fun j => ?_
  rw [unpack_C_testBit, unpack_pack_r hfit]
  by_cases hj : j < p.r.val
  · rw [pack_testBit_characteristic hfit hj, decide_eq_true hj, Bool.true_and]
  · rw [decide_eq_false hj, Bool.false_and, lowBits_testBit_of_le _ (Nat.le_of_not_lt hj)]

theorem unpack_pack_M {n : Width} {p : WordParts} (hfit : 5 + p.r.val ≤ n.bits) :
    (unpack n (pack n p)).M = lowBits p.m (mbits n p.r) := by
  refine Nat.eq_of_testBit_eq fun i => ?_
  rw [unpack_M_testBit, unpack_pack_r hfit]
  by_cases hi : i < mbits n p.r
  · rw [pack_testBit_mantissa hi, decide_eq_true hi, Bool.true_and]
  · rw [decide_eq_false hi, Bool.false_and, lowBits_testBit_of_le _ (Nat.le_of_not_lt hi)]

theorem WordFields.eq_of_fields {f g : WordFields} (hS : f.S = g.S) (hD : f.D = g.D) (hr : f.r = g.r) (hC : f.C = g.C)
    (hM : f.M = g.M) : f = g := by
  cases f
  cases g
  simp_all

/-- What `unpack` reads from a packed word whose fields fit. -/
theorem unpack_pack {n : Width} {p : WordParts} (hfit : 5 + p.r.val ≤ n.bits) : unpack n (pack n p) =
    { S := p.s, D := p.d, r := p.r, C := lowBits p.c p.r.val, M := lowBits p.m (mbits n p.r) } :=
  WordFields.eq_of_fields (pack_testBit_sign n p) (pack_testBit_direction hfit) (unpack_pack_r hfit) (unpack_pack_C hfit)
    (unpack_pack_M hfit)

/-- Settles O26: `unpack_pack`. -/
theorem unpackUndoesPackWhereFieldsFit : Obligations.UnpackUndoesPackWhereFieldsFit := fun n p hfit =>
  unpack_pack ((fieldsFit_iff n p.r).1 hfit)

/-- Settles O27, bit by bit: every field holds bits of the word, and every bit of the word is in a field. -/
theorem packUndoesUnpack : Obligations.PackUndoesUnpack := by
  intro n u hu
  have hn := Width.eight_le_bits n
  refine Nat.eq_of_testBit_eq fun i => ?_
  by_cases hi : i < n.bits
  · have hmb : mbits n (unpack n u).r = n.bits - 5 - (unpack n u).r.val := rfl
    rw [pack_testBit, lowBits_of_lt (unpack_C_lt n u), lowBits_of_lt (unpack_M_lt n u), unpack_r_testBit,
      unpack_C_testBit, unpack_M_testBit]
    rw [Bool.eq_iff_iff]
    simp only [Bool.and_eq_true, Bool.or_eq_true, decide_eq_true_eq]
    constructor
    · rintro ⟨-, (((⟨hbit, rfl⟩ | ⟨hbit, rfl⟩) | ⟨hle, -, hbit⟩) | ⟨hle, -, hbit⟩) | ⟨-, hbit⟩⟩
      · exact hbit
      · exact hbit
      · rwa [Nat.add_sub_of_le hle] at hbit
      · rwa [Nat.add_sub_of_le hle] at hbit
      · exact hbit
    · intro hbit
      refine ⟨hi, ?_⟩
      by_cases hmantissa : i < mbits n (unpack n u).r
      · exact .inr ⟨hmantissa, hbit⟩
      by_cases hchar : i < n.bits - 5
      · exact .inl (.inr ⟨by omega, by omega, by rwa [Nat.add_sub_of_le (by omega)]⟩)
      by_cases hregime : i < n.bits - 2
      · exact .inl (.inl (.inr ⟨by omega, by omega, by rwa [Nat.add_sub_of_le (by omega)]⟩))
      by_cases hdirection : i = n.bits - 2
      · exact .inl (.inl (.inl (.inr ⟨by rwa [hdirection] at hbit, hdirection⟩)))
      · have hsign : i = n.bits - 1 := by omega
        exact .inl (.inl (.inl (.inl ⟨by rwa [hsign] at hbit, hsign⟩)))
  · have hhigh : ∀ {v : Nat}, v < 2 ^ n.bits → v.testBit i = false := fun hv =>
      Nat.testBit_lt_two_pow (lt_of_lt_of_le hv (Nat.pow_le_pow_right (by omega) (Nat.le_of_not_lt hi)))
    rw [hhigh (pack_lt n _), hhigh hu]

/-- The word operand is the low part of the data (30_encoding.md R44). -/
theorem wordOperand_eq (n : Width) (data : Data) : wordOperand n data = (data.setWidth n.bits).toNat := by
  rw [wordOperand, BitVec.toNat_setWidth]

/-- The low part of a sign-extended word is the word (30_encoding.md R46). -/
theorem setWidth_sext64 (n : Width) (u : Nat) : (sext64 n u).setWidth n.bits = BitVec.ofNat n.bits u := by
  have hn := Width.bits_le n
  ext i hi
  have hi64 : i < 64 := by omega
  simp [sext64, BitVec.getElem_signExtend, hi, hi64]

theorem wordOperand_sext64 {n : Width} {u : Nat} (hu : u < 2 ^ n.bits) : wordOperand n (sext64 n u) = u := by
  rw [wordOperand_eq, setWidth_sext64, BitVec.toNat_ofNat, Nat.mod_eq_of_lt hu]

/-- Settles O28: both extensions keep the low part, and sign extension keeps the signed reading. -/
theorem signExtensionKeepsTheWord : Obligations.SignExtensionKeepsTheWord := by
  intro n u hu
  refine ⟨BitVec.toInt_signExtend_of_le (Width.bits_le n), wordOperand_sext64 hu, ?_⟩
  have h64 : u < 2 ^ 64 := lt_of_lt_of_le hu (Nat.pow_le_pow_right (by omega) (Width.bits_le n))
  rw [wordOperand, BitVec.toNat_ofNat, Nat.mod_eq_of_lt h64, Nat.mod_eq_of_lt hu]

end Sys2Proof.Machine
end

section
/-! PROOFS. The characteristic field that ENCODE writes (43_encoder.md R70) and the ranges of the logarithm that DECODE reads
(44_decoder.md R86, R93). -/

namespace Sys2Proof.Machine

/-- No regime is above 7. -/
theorem two_pow_regime_le (r : Regime) : (2 : Int) ^ r.val ≤ 128 := by
  revert r
  decide

theorem characteristic_of_nonneg {l : Int} (hl : 0 ≤ l) {r : Regime} (hr : r ≠ 0) :
    characteristic biasRomContents l r = l - (2 ^ (r.val + 1) - 1) := by
  rw [characteristic, if_neg hr, if_pos hl, BiasRom.intCast_read_contents]

theorem characteristic_of_neg {l : Int} (hl : l < 0) {r : Regime} (hr : r ≠ 0) :
    characteristic biasRomContents l r = 2 ^ (r.val + 1) - 1 - 1 - l.natAbs := by
  rw [characteristic, if_neg hr, if_neg (not_le.2 hl), BiasRom.intCast_read_contents]

/-- A residue in its range is the remainder. -/
theorem emod_eq_of_eq_add_mul {x c b : Int} (k : Int) (hx : x = c + b * k) (hc : 0 ≤ c) (hcb : c < b) : x % b = c := by
  rw [hx, Int.add_mul_emod_self_left, Int.emod_eq_of_lt hc hcb]

/-- The regime of a logarithm that is neither 0 nor at the clamp: below `2^(r+1) - 1` in regime 7 too. -/
theorem regimeOf_bounds {l : Int} (hl : l ≠ 0) (hclamp : l.natAbs < 255) :
    regimeOf l.natAbs ≠ 0 ∧ (2 : Int) ^ (regimeOf l.natAbs).val ≤ |l| + 1
      ∧ |l| + 1 < 2 * 2 ^ (regimeOf l.natAbs).val := by
  obtain ⟨hlow, hhigh⟩ := (regimeOf_eq_iff l.natAbs _).1 rfl
  have hne : regimeOf l.natAbs ≠ 0 := fun h => hl (Int.natAbs_eq_zero.1 ((regimeOf_eq_zero _).1 h))
  generalize regimeOf l.natAbs = r at *
  have hr := r.isLt
  have hhigh' : l.natAbs + 1 < 2 ^ (r.val + 1) := by
    rcases Nat.lt_or_ge r.val 7 with h7 | h7
    · exact hhigh h7
    · rw [show r.val = 7 by omega]
      omega
  rw [pow_succ] at hhigh'
  rw [Int.abs_eq_natAbs]
  exact ⟨hne, by exact_mod_cast hlow, by rw [mul_comm]; exact_mod_cast hhigh'⟩

theorem characteristicField_of_pos {l : Int} (hpos : 0 < l) (hclamp : l < 255) :
    (lowBits (characteristic biasRomContents l (regimeOf l.natAbs)) (regimeOf l.natAbs).val : Int)
      = l - (2 ^ (regimeOf l.natAbs).val - 1) := by
  obtain ⟨hr, hlow, hhigh⟩ := regimeOf_bounds (l := l) (by omega) (by omega)
  rw [abs_of_pos hpos] at hlow hhigh
  rw [lowBits_cast, characteristic_of_nonneg hpos.le hr, pow_succ]
  exact emod_eq_of_eq_add_mul (-1) (by ring) (by omega) (by omega)

theorem characteristicField_of_neg {l : Int} (hneg : l < 0) (hclamp : -255 < l) :
    (lowBits (characteristic biasRomContents l (regimeOf l.natAbs)) (regimeOf l.natAbs).val : Int)
      = 2 ^ ((regimeOf l.natAbs).val + 1) - 2 - |l| := by
  obtain ⟨hr, hlow, hhigh⟩ := regimeOf_bounds (l := l) (by omega) (by omega)
  rw [lowBits_cast, characteristic_of_neg hneg hr, ← Int.abs_eq_natAbs, pow_succ]
  exact emod_eq_of_eq_add_mul 0 (by ring) (by omega) (by omega)

/-- Settles O37: 0 and the two ends by evaluation, `characteristicField_of_pos` and `characteristicField_of_neg` between. -/
theorem characteristicFieldClosedForm : Obligations.CharacteristicFieldClosedForm := by
  intro l hlow hhigh
  by_cases hzero : l = 0
  · subst hzero
    decide +kernel
  by_cases htop : l = 255
  · subst htop
    decide +kernel
  by_cases hbottom : l = -255
  · subst hbottom
    decide +kernel
  simp only [hzero, htop, hbottom, if_false]
  split
  · exact characteristicField_of_pos ‹_› (by omega)
  · exact characteristicField_of_neg (by omega) (by omega)

/-- With direction 0 one formula serves every regime: at regime 0 the characteristic is 0. -/
theorem decodedLog_negative_eq {f : WordFields} (hD : f.D = false) (hC : f.C < 2 ^ f.r.val) :
    decodedLog biasRomContents f = (f.C : Int) - (2 ^ (f.r.val + 1) - 1) := by
  by_cases hr : f.r = 0
  · rw [hr, Fin.val_zero, pow_zero, Nat.lt_one_iff] at hC
    rw [decodedLog_negative_of_regime_zero _ hD hr, hr, hC]
    rfl
  · exact decodedLog_negative_of_regime_pos hD (Fin.pos_iff_ne_zero.2 hr)

/-- With direction 0 regime `r` reads the logarithms from `-(2^(r+1) - 1)` to `-2^r` (44_decoder.md R93). -/
theorem decodedLog_negative_range {f : WordFields} (hD : f.D = false) (hC : f.C < 2 ^ f.r.val) :
    -(2 ^ (f.r.val + 1) - 1) ≤ decodedLog biasRomContents f ∧ decodedLog biasRomContents f ≤ -(2 ^ f.r.val) := by
  have hC' : (f.C : Int) < 2 ^ f.r.val := by exact_mod_cast hC
  rw [decodedLog_negative_eq hD hC, pow_succ]
  omega

/-- With direction 1 regime `r > 0` reads the logarithms from `2^(r+1) - 1` to `2^(r+1) + 2^r - 2` (44_decoder.md R93). -/
theorem decodedLog_nonnegative_range {f : WordFields} (hD : f.D = true) (hr : 0 < f.r.val) (hC : f.C < 2 ^ f.r.val) :
    2 ^ (f.r.val + 1) - 1 ≤ decodedLog biasRomContents f
      ∧ decodedLog biasRomContents f ≤ 2 ^ (f.r.val + 1) + 2 ^ f.r.val - 2 := by
  have hC' : (f.C : Int) < 2 ^ f.r.val := by exact_mod_cast hC
  rw [decodedLog_nonnegative_of_regime_pos hD hr]
  omega

theorem decodedLog_range {f : WordFields} (hC : f.C < 2 ^ f.r.val) :
    -255 ≤ decodedLog biasRomContents f ∧ decodedLog biasRomContents f ≤ 382 := by
  have hr := two_pow_regime_le f.r
  have hpos : (0 : Int) < 2 ^ f.r.val := by positivity
  cases hD : f.D with
  | false =>
    have hrange := decodedLog_negative_range hD hC
    rw [pow_succ] at hrange
    omega
  | true =>
    rcases Nat.eq_zero_or_pos f.r.val with hzero | hrpos
    · rw [decodedLog_nonnegative_of_regime_zero _ hD (Fin.ext hzero)]
      omega
    · have hrange := decodedLog_nonnegative_range hD hrpos hC
      rw [pow_succ] at hrange
      omega

/-- Settles O46: a word's characteristic is below `2^r`, so the three ranges hold. -/
theorem decodedLogStaysInItsRange : Obligations.DecodedLogStaysInItsRange := fun n u _ =>
  have hC := unpack_C_lt n u
  ⟨decodedLog_range hC, fun hD hr => decodedLog_nonnegative_range hD hr hC, fun hD _ => decodedLog_negative_range hD hC⟩

/-- With direction 0 the regime is the highest bit of the logarithm. -/
theorem regime_of_decodedLog_negative {f : WordFields} (hD : f.D = false) (hC : f.C < 2 ^ f.r.val) :
    f.r.val = (decodedLog biasRomContents f).natAbs.log2 := by
  obtain ⟨hlow, hhigh⟩ := decodedLog_negative_range hD hC
  have hpos : 0 < 2 ^ f.r.val := Nat.two_pow_pos _
  generalize decodedLog biasRomContents f = l at *
  zify at hpos
  refine ((Nat.log2_eq_iff (by omega)).2 ⟨?_, ?_⟩).symm
  · zify
    rw [Int.abs_eq_natAbs]
    omega
  · zify
    rw [Int.abs_eq_natAbs]
    omega

/-- Settles O47: the regime is the highest bit of `|l|`, and then `decodedLog_negative_eq` gives the characteristic. -/
theorem everyNegativeLogIsReachedOnce : Obligations.EveryNegativeLogIsReachedOnce := by
  intro l hlow hhigh
  have hne : l.natAbs ≠ 0 := by omega
  have hlow_log : 2 ^ l.natAbs.log2 ≤ l.natAbs := Nat.log2_self_le hne
  have hhigh_log : l.natAbs < 2 ^ (l.natAbs.log2 + 1) := Nat.lt_log2_self
  have hregime : l.natAbs.log2 < 8 := (Nat.log2_lt hne).2 (by omega)
  obtain ⟨C, hsum⟩ : ∃ C, C + l.natAbs + 1 = 2 ^ (l.natAbs.log2 + 1) := ⟨2 ^ (l.natAbs.log2 + 1) - 1 - l.natAbs, by omega⟩
  have hC : C < 2 ^ l.natAbs.log2 := by
    rw [pow_succ] at hsum
    omega
  have hsum_int : (C : Int) + l.natAbs + 1 = 2 ^ (l.natAbs.log2 + 1) := by exact_mod_cast hsum
  refine ⟨⟨l.natAbs.log2, hregime⟩, C, hC, ?_, fun r' C' hC' hl => ?_⟩
  · rw [decodedLog_negative_eq rfl hC]
    simp only
    omega
  · have hr' := regime_of_decodedLog_negative (f := ⟨false, false, r', C', 0⟩) rfl hC'
    have hl' := decodedLog_negative_eq (f := ⟨false, false, r', C', 0⟩) rfl hC'
    rw [hl] at hr' hl'
    simp only at hr' hl'
    rw [hr'] at hl'
    exact ⟨Fin.ext hr', by omega⟩

end Sys2Proof.Machine
end

section
/-! PROOFS. Binary64: the value of a pattern and the pattern of a value (30_encoding.md R38). -/

namespace Sys2Proof

theorem F64.isFinite_iff (x : F64) : F64.isFinite x = true ↔ F64.exponent x ≠ 0x7FF := by simp [F64.isFinite]

theorem F64.isZero_iff (x : F64) : F64.isZero x = true ↔ F64.exponent x = 0 ∧ F64.fraction x = 0 := by simp [F64.isZero]

theorem F64.isNormal_iff (x : F64) : F64.isNormal x = true ↔ F64.exponent x ≠ 0 ∧ F64.exponent x ≠ 0x7FF := by
  simp [F64.isNormal]

theorem F64.magnitude_of_exponent_zero {x : F64} (he : F64.exponent x = 0) : F64.magnitude x = F64.fraction x :=
  if_pos he

theorem F64.magnitude_of_exponent_ne_zero {x : F64} (he : F64.exponent x ≠ 0) :
    F64.magnitude x = (2 ^ 52 + F64.fraction x) * 2 ^ (F64.exponent x - 1) :=
  if_neg he

/-- Below `2^52` the pattern is subnormal or zero. -/
theorem F64.exponent_eq_zero_iff (x : F64) : F64.exponent x = 0 ↔ F64.magnitude x < 2 ^ 52 := by
  constructor
  · intro he
    rw [F64.magnitude_of_exponent_zero he]
    exact F64.fraction_lt x
  · intro hm
    by_contra he
    have hpow := Nat.le_mul_of_pos_right (2 ^ 52 + F64.fraction x) (Nat.two_pow_pos (F64.exponent x - 1))
    rw [F64.magnitude_of_exponent_ne_zero he] at hm
    omega

theorem F64.magnitude_lt_of_finite {x : F64} (hx : F64.isFinite x = true) : F64.magnitude x < 2 ^ 2098 := by
  obtain ⟨q, j, hm, hq, hj⟩ := F64.magnitude_form x
  have hexp := F64.exponent_lt x
  have hfin := (F64.isFinite_iff x).1 hx
  calc F64.magnitude x = q * 2 ^ j := hm
    _ < 2 ^ 53 * 2 ^ j := Nat.mul_lt_mul_of_pos_right hq (Nat.two_pow_pos j)
    _ = 2 ^ (53 + j) := (pow_add 2 53 j).symm
    _ ≤ 2 ^ 2098 := Nat.pow_le_pow_right (by omega) (by omega)

theorem F64.scaled_of_signbit_false {x : F64} (hs : F64.signbit x = false) : F64.scaled x = F64.magnitude x := by
  rw [F64.scaled, if_neg (ne_true_of_eq_false hs)]

theorem F64.scaled_of_signbit_true {x : F64} (hs : F64.signbit x = true) : F64.scaled x = -F64.magnitude x := by
  rw [F64.scaled, if_pos hs]

theorem F64.abs_scaled (x : F64) : |F64.scaled x| = F64.magnitude x := by
  rw [Int.abs_eq_natAbs, F64.natAbs_scaled]

theorem F64.magnitude_eq_zero_iff (x : F64) : F64.magnitude x = 0 ↔ F64.isZero x = true := by
  rw [F64.isZero_iff]
  constructor
  · intro hm
    have he : F64.exponent x = 0 := (F64.exponent_eq_zero_iff x).2 (by omega)
    exact ⟨he, F64.magnitude_of_exponent_zero he ▸ hm⟩
  · rintro ⟨he, hf⟩
    rw [F64.magnitude_of_exponent_zero he, hf]

theorem F64.scaled_of_isZero {x : F64} (hx : F64.isZero x = true) : F64.scaled x = 0 := by
  rw [← Int.natAbs_eq_zero, F64.natAbs_scaled]
  exact (F64.magnitude_eq_zero_iff x).2 hx

theorem F64.isFinite_of_isZero {x : F64} (hx : F64.isZero x = true) : F64.isFinite x = true := by
  rw [F64.isFinite_iff, ((F64.isZero_iff x).1 hx).1]
  decide

/-- The value of `fabs` is the absolute value (00_scope.md R8). -/
theorem F64.scaled_fabs (x : F64) : F64.scaled (F64.fabs x) = |F64.scaled x| := by
  obtain ⟨hs, he, hf⟩ := F64.fabs_fields x
  rw [F64.scaled_of_signbit_false hs, F64.abs_scaled, F64.magnitude, F64.magnitude, he, hf]

/-- Flipping the sign bit changes the sign and keeps exponent and fraction. -/
theorem F64.neg_fields (x : F64) : F64.signbit (F64.neg x) = !F64.signbit x ∧ F64.exponent (F64.neg x) = F64.exponent x
    ∧ F64.fraction (F64.neg x) = F64.fraction x := by
  have hmask : (0x8000000000000000 : F64) = BitVec.twoPow 64 63 := by decide
  refine ⟨?_, ?_, ?_⟩
  · rw [F64.signbit, F64.neg, BitVec.msb_xor, F64.signbit]
    exact Bool.xor_true _
  · unfold F64.exponent F64.neg
    congr 1
    ext i hi
    have hne : 52 + i ≠ 63 := by omega
    simp [hmask, BitVec.getLsbD_xor, BitVec.getLsbD_twoPow, Ne.symm hne]
  · unfold F64.fraction F64.neg
    congr 1
    ext i hi
    have hne : i ≠ 63 := by omega
    simp [hmask, BitVec.getLsbD_xor, BitVec.getLsbD_twoPow, Ne.symm hne]

theorem F64.magnitude_neg (x : F64) : F64.magnitude (F64.neg x) = F64.magnitude x := by
  obtain ⟨-, he, hf⟩ := F64.neg_fields x
  rw [F64.magnitude, F64.magnitude, he, hf]

/-- A pattern is its three fields. -/
theorem F64.eq_of_fields {x y : F64} (hs : F64.signbit x = F64.signbit y) (he : F64.exponent x = F64.exponent y)
    (hf : F64.fraction x = F64.fraction y) : x = y := by
  have hx := x.isLt
  have hy := y.isLt
  simp only [F64.signbit, BitVec.msb_eq_decide, decide_eq_decide] at hs
  simp only [F64.exponent, F64.fraction, BitVec.extractLsb'_toNat, Nat.shiftRight_eq_div_pow] at he hf
  apply BitVec.eq_of_toNat_eq
  omega

theorem F64.fabs_neg (x : F64) : F64.fabs (F64.neg x) = F64.fabs x := by
  obtain ⟨hs, he, hf⟩ := F64.fabs_fields x
  obtain ⟨hs', he', hf'⟩ := F64.fabs_fields (F64.neg x)
  obtain ⟨-, hen, hfn⟩ := F64.neg_fields x
  exact F64.eq_of_fields (hs'.trans hs.symm) (he'.trans (hen.trans he.symm)) (hf'.trans (hfn.trans hf.symm))

/-- Of two normal significands with the same value, neither has the smaller exponent. -/
theorem significand_exponent_le {f g a b : Nat} (hf : f < 2 ^ 52) (h : (2 ^ 52 + f) * 2 ^ a = (2 ^ 52 + g) * 2 ^ b) :
    b ≤ a := by
  by_contra hab
  have hpow : 2 ^ (a + 1) ≤ 2 ^ b := Nat.pow_le_pow_right (by omega) (by omega)
  have hlow : 2 ^ 52 * 2 ^ b ≤ (2 ^ 52 + g) * 2 ^ b := Nat.mul_le_mul_right _ (by omega)
  have hhigh : (2 ^ 52 + f) * 2 ^ a < 2 ^ 53 * 2 ^ a := Nat.mul_lt_mul_of_pos_right (by omega) (Nat.two_pow_pos a)
  rw [pow_succ] at hpow
  omega

theorem F64.fields_of_magnitude_eq {x y : F64} (h : F64.magnitude x = F64.magnitude y) :
    F64.exponent x = F64.exponent y ∧ F64.fraction x = F64.fraction y := by
  have hzero : F64.exponent x = 0 ↔ F64.exponent y = 0 := by
    rw [F64.exponent_eq_zero_iff, F64.exponent_eq_zero_iff, h]
  by_cases hx : F64.exponent x = 0
  · have hy := hzero.1 hx
    rw [F64.magnitude_of_exponent_zero hx, F64.magnitude_of_exponent_zero hy] at h
    exact ⟨hx.trans hy.symm, h⟩
  · have hy := fun hy => hx (hzero.2 hy)
    rw [F64.magnitude_of_exponent_ne_zero hx, F64.magnitude_of_exponent_ne_zero hy] at h
    have hle := significand_exponent_le (F64.fraction_lt x) h
    have hge := significand_exponent_le (F64.fraction_lt y) h.symm
    have he : F64.exponent x - 1 = F64.exponent y - 1 := le_antisymm hge hle
    rw [he] at h
    have hf := Nat.eq_of_mul_eq_mul_right (Nat.two_pow_pos _) h
    exact ⟨by omega, by omega⟩

/-- Only the two zeros share a value. -/
theorem F64.eq_of_scaled_eq {x y : F64} (h : F64.scaled x = F64.scaled y) (hne : F64.scaled x ≠ 0) : x = y := by
  have hm : F64.magnitude x = F64.magnitude y := by rw [← F64.natAbs_scaled, ← F64.natAbs_scaled, h]
  obtain ⟨he, hf⟩ := F64.fields_of_magnitude_eq hm
  refine F64.eq_of_fields ?_ he hf
  cases hx : F64.signbit x <;> cases hy : F64.signbit y
  · rfl
  · rw [F64.scaled_of_signbit_false hx, F64.scaled_of_signbit_true hy] at h
    rw [F64.scaled_of_signbit_false hx] at hne
    omega
  · rw [F64.scaled_of_signbit_true hx, F64.scaled_of_signbit_false hy] at h
    rw [F64.scaled_of_signbit_true hx] at hne
    omega
  · rfl

theorem F64.scaled_one : F64.scaled F64.one = 2 ^ 1074 := by decide +kernel

theorem F64.scaled_zero : F64.scaled F64.zero = 0 := by decide +kernel

end Sys2Proof
end

section
/-! PROOFS. `F64.rn` is correct rounding (00_scope.md R8): among the multiples of the unit in the last place by the spec of
`divHalfEven`, and against finer values because those are too small to come near. -/

namespace Sys2Proof

/-- No multiple of `b` is nearer to `a` than the rounded quotient's, and only an even quotient ties with another. -/
theorem divHalfEven_nearest (a : Nat) {b : Nat} (hb : 0 < b) (p : Int) :
    |(divHalfEven a b : Int) * b - a| ≤ |p * b - a|
      ∧ (|(divHalfEven a b : Int) * b - a| = |p * b - a| → p ≠ divHalfEven a b → divHalfEven a b % 2 = 0) := by
  obtain ⟨hlow, hhigh, htie⟩ := divHalfEven_spec a b hb
  generalize divHalfEven a b = q at *
  zify at hlow hhigh
  have htie' : (2 * (a : Int) = 2 * (q * b) + b ∨ 2 * ((q : Int) * b) = 2 * a + b) → q % 2 = 0 :=
    fun h => htie (by exact_mod_cast h)
  rw [Int.abs_eq_natAbs, Int.abs_eq_natAbs]
  rcases lt_trichotomy p q with hlt | rfl | hgt
  · have hstep : p * b ≤ (q - 1) * b := mul_le_mul_of_nonneg_right (by omega) (by positivity)
    rw [sub_mul, one_mul] at hstep
    omega
  · exact ⟨le_refl _, fun _ h => absurd rfl h⟩
  · have hstep : ((q : Int) + 1) * b ≤ p * b := mul_le_mul_of_nonneg_right (by omega) (by positivity)
    rw [add_mul, one_mul] at hstep
    omega

/-- Below the overflow threshold `2^1024 - 2^970` the rounded magnitude is below `2^1024`. -/
theorem F64.rounded_lt {m k : Nat} (hm : m < (2 ^ 54 - 1) * 2 ^ (970 + k)) :
    divHalfEven m (2 ^ F64.ulpExponent m k) * 2 ^ (F64.ulpExponent m k + 1074 - k) < 2 ^ 2098 := by
  have hsig := F64.significand_le m k
  have hspec := (divHalfEven_spec m (2 ^ F64.ulpExponent m k) (Nat.two_pow_pos _)).2.1
  have hlog : Nat.log2 m < 1024 + k ∨ m = 0 := by
    rcases Nat.eq_zero_or_pos m with h0 | hpos
    · exact .inr h0
    · refine .inl ((Nat.log2_lt (by omega)).2 (lt_of_lt_of_le hm ?_))
      rw [show 1024 + k = 54 + (970 + k) by omega, pow_add 2 54]
      exact Nat.mul_le_mul_right _ (by omega)
  have hu : F64.ulpExponent m k ≤ 971 + k := by
    rcases hlog with hlog | rfl
    · unfold F64.ulpExponent; omega
    · rw [F64.ulpExponent, show Nat.log2 0 = 0 by decide]; omega
  generalize hu' : F64.ulpExponent m k = u at *
  generalize divHalfEven m (2 ^ u) = q at *
  rcases Nat.lt_or_ge u (971 + k) with hsmall | hbig
  · calc q * 2 ^ (u + 1074 - k) ≤ 2 ^ 53 * 2 ^ (u + 1074 - k) := Nat.mul_le_mul_right _ hsig
      _ = 2 ^ (53 + (u + 1074 - k)) := (pow_add 2 53 _).symm
      _ < 2 ^ 2098 := Nat.pow_lt_pow_right (by omega) (by omega)
  · have hu971 : u = (970 + k) + 1 := by omega
    rw [hu971, pow_succ] at hspec
    have hq : q < 2 ^ 53 := by
      by_contra hq
      have hmul : 2 ^ 53 * (2 ^ (970 + k) * 2) ≤ q * (2 ^ (970 + k) * 2) := Nat.mul_le_mul_right _ (by omega)
      omega
    calc q * 2 ^ (u + 1074 - k) < 2 ^ 53 * 2 ^ (u + 1074 - k) := Nat.mul_lt_mul_of_pos_right hq (Nat.two_pow_pos _)
      _ = 2 ^ 2098 := by rw [← pow_add]; congr 1; omega

/-- A value that is no multiple of the unit in the last place `2^u` has finer places than it. -/
theorem places_lt_of_not_dvd {k u q j : Nat} {Y : Int} (hY : Y.natAbs = q * 2 ^ j)
    (hdvd : ¬ (2 : Int) ^ u * 2 ^ 1074 ∣ Y * 2 ^ k) : j + k < u + 1074 := by
  by_contra hge
  refine hdvd (Int.natAbs_dvd_natAbs.1 ?_)
  rw [← pow_add, Int.natAbs_mul, Int.natAbs_pow, Int.natAbs_pow, hY, mul_assoc, show Int.natAbs 2 = 2 from rfl]
  exact Dvd.dvd.mul_left (by rw [← pow_add]; exact pow_dvd_pow 2 (by omega)) q

/-- A value with finer places than `2^u` is below the values of 53 bits whose last place is `2^u`. -/
theorem lt_binade_of_places_lt {k u q j : Nat} {Y : Int} (hY : Y.natAbs = q * 2 ^ j) (hq : q < 2 ^ 53)
    (hplaces : j + k < u + 1074) : |Y * 2 ^ k| < 2 ^ 52 * 2 ^ u * 2 ^ 1074 := by
  have hlt : q * (2 ^ j * 2 ^ k) < 2 ^ 52 * 2 ^ u * 2 ^ 1074 :=
    calc q * (2 ^ j * 2 ^ k) < 2 ^ 53 * (2 ^ j * 2 ^ k) := Nat.mul_lt_mul_of_pos_right hq (by positivity)
      _ = 2 ^ 52 * 2 ^ (j + k + 1) := by rw [← pow_add, ← pow_add, ← pow_add]; congr 1; omega
      _ ≤ 2 ^ 52 * 2 ^ (u + 1074) := Nat.mul_le_mul_left _ (Nat.pow_le_pow_right (by omega) (by omega))
      _ = 2 ^ 52 * 2 ^ u * 2 ^ 1074 := by rw [pow_add 2 u, mul_assoc]
  rw [Int.abs_eq_natAbs, Int.natAbs_mul, hY, Int.natAbs_pow, mul_assoc]
  exact_mod_cast hlt

/-- A value that is no multiple of the unit in the last place of `m / 2^k` is strictly farther from it than the rounding is:
where the unit is the smallest the rounding is exact, and else the value is below the binade of `m / 2^k`. -/
theorem F64.rounded_nearer_of_not_dvd {m k q j : Nat} {Y : Int} (hY : Y.natAbs = q * 2 ^ j) (hq : q < 2 ^ 53)
    (hdvd : ¬ (2 : Int) ^ F64.ulpExponent m k * 2 ^ 1074 ∣ Y * 2 ^ k) :
    |(divHalfEven m (2 ^ F64.ulpExponent m k) : Int) * 2 ^ F64.ulpExponent m k * 2 ^ 1074 - m * 2 ^ 1074|
      < |Y * 2 ^ k - m * 2 ^ 1074| := by
  have hplaces := places_lt_of_not_dvd hY hdvd
  have hu : F64.ulpExponent m k = max (Nat.log2 m - 52) (k - 1074) := rfl
  have hnearest := (divHalfEven_nearest m (Nat.two_pow_pos (F64.ulpExponent m k)) (2 ^ 52)).1
  generalize F64.ulpExponent m k = u at *
  rcases Nat.eq_zero_or_pos u with hzero | hpos
  · subst hzero
    have hexact : divHalfEven m (2 ^ 0) = m := by
      rw [pow_zero, divHalfEven_of_dvd m 1 (one_dvd m) Nat.one_pos, Nat.div_one]
    have hne : Y * 2 ^ k - m * 2 ^ 1074 ≠ 0 := fun h =>
      hdvd ⟨m, by rw [sub_eq_zero.1 h, pow_zero, one_mul, mul_comm]⟩
    rw [hexact, pow_zero, mul_one, sub_self, abs_zero]
    exact abs_pos.2 hne
  · have hm0 : m ≠ 0 := by
      rintro rfl
      rw [show Nat.log2 0 = 0 by decide] at hu
      omega
    have hbinade : (2 : Int) ^ 52 * 2 ^ u ≤ m := by
      have hbinade_nat : 2 ^ (52 + u) ≤ m := (Nat.le_log2 hm0).1 (by omega)
      rw [← pow_add]
      exact_mod_cast hbinade_nat
    have hbelow := lt_binade_of_places_lt hY hq hplaces
    have hscale : (0 : Int) < 2 ^ 1074 := pow_pos two_pos 1074
    calc |(divHalfEven m (2 ^ u) : Int) * 2 ^ u * 2 ^ 1074 - m * 2 ^ 1074|
        = |(divHalfEven m (2 ^ u) : Int) * 2 ^ u - m| * 2 ^ 1074 := by rw [← sub_mul, abs_mul, abs_of_pos hscale]
      _ ≤ |(2 : Int) ^ 52 * 2 ^ u - m| * 2 ^ 1074 := mul_le_mul_of_nonneg_right (by exact_mod_cast hnearest) hscale.le
      _ = m * 2 ^ 1074 - 2 ^ 52 * 2 ^ u * 2 ^ 1074 := by rw [abs_of_nonpos (by omega), neg_sub, sub_mul]
      _ < m * 2 ^ 1074 - Y * 2 ^ k := sub_lt_sub_left (lt_of_le_of_lt (le_abs_self _) hbelow) _
      _ ≤ |Y * 2 ^ k - m * 2 ^ 1074| := by rw [abs_sub_comm]; exact le_abs_self _

/-- The rounded magnitude is nearest to `m / 2^k` among all values of at most 53 bits, and only an even one ties. -/
theorem F64.rounded_nearest (m k : Nat) {q j : Nat} {Y : Int} (hY : Y.natAbs = q * 2 ^ j) (hq : q < 2 ^ 53) :
    |(divHalfEven m (2 ^ F64.ulpExponent m k) : Int) * 2 ^ F64.ulpExponent m k * 2 ^ 1074 - m * 2 ^ 1074|
        ≤ |Y * 2 ^ k - m * 2 ^ 1074|
      ∧ (|(divHalfEven m (2 ^ F64.ulpExponent m k) : Int) * 2 ^ F64.ulpExponent m k * 2 ^ 1074 - m * 2 ^ 1074|
          = |Y * 2 ^ k - m * 2 ^ 1074| →
        Y * 2 ^ k ≠ divHalfEven m (2 ^ F64.ulpExponent m k) * 2 ^ F64.ulpExponent m k * 2 ^ 1074 →
        divHalfEven m (2 ^ F64.ulpExponent m k) % 2 = 0) := by
  by_cases hdvd : (2 : Int) ^ F64.ulpExponent m k * 2 ^ 1074 ∣ Y * 2 ^ k
  · obtain ⟨p, hp⟩ := hdvd
    obtain ⟨hle, htie⟩ := divHalfEven_nearest m (Nat.two_pow_pos (F64.ulpExponent m k)) p
    push_cast at hle htie
    have hscale : (0 : Int) < 2 ^ 1074 := pow_pos two_pos 1074
    have hp' : Y * 2 ^ k = p * 2 ^ F64.ulpExponent m k * 2 ^ 1074 := by rw [hp, mul_comm, ← mul_assoc]
    simp only [hp', ← sub_mul, abs_mul, abs_of_pos hscale]
    refine ⟨mul_le_mul_of_nonneg_right hle hscale.le, fun heq hne => htie (mul_right_cancel₀ hscale.ne' heq) ?_⟩
    rintro rfl
    exact hne rfl
  · have hlt := F64.rounded_nearer_of_not_dvd hY hq hdvd
    exact ⟨hlt.le, fun heq => absurd heq hlt.ne⟩

/-- Where a magnitude is an even number of units, the last bit of the pattern is 0. -/
theorem F64.fraction_even {x : F64} {q j : Nat} (hx : F64.magnitude x = q * 2 ^ j) (hq : q ≤ 2 ^ 53) (heven : q % 2 = 0) :
    F64.fraction x % 2 = 0 := by
  have heven_mul : ∀ i, q * 2 ^ i % 2 = 0 := fun i => by rw [Nat.mul_mod, heven, zero_mul, Nat.zero_mod]
  by_cases he : F64.exponent x = 0
  · rw [← F64.magnitude_of_exponent_zero he, hx]
    exact heven_mul j
  rw [F64.magnitude_of_exponent_ne_zero he] at hx
  generalize F64.exponent x - 1 = e at hx
  rcases Nat.lt_or_ge j e with hlt | hge
  · have hcancel : (2 ^ 52 + F64.fraction x) * 2 ^ (e - j) = q := by
      refine Nat.eq_of_mul_eq_mul_right (Nat.two_pow_pos j) ?_
      rw [mul_assoc, ← pow_add, Nat.sub_add_cancel hlt.le, hx]
    have hdouble : 2 ^ 1 ≤ 2 ^ (e - j) := Nat.pow_le_pow_right (by omega) (by omega)
    have hle := Nat.mul_le_mul_left (2 ^ 52 + F64.fraction x) hdouble
    omega
  · have hcancel : 2 ^ 52 + F64.fraction x = q * 2 ^ (j - e) := by
      refine Nat.eq_of_mul_eq_mul_right (Nat.two_pow_pos e) ?_
      rw [mul_assoc, ← pow_add, Nat.sub_add_cancel hge, hx]
    have heven' := heven_mul (j - e)
    omega

/-- What `F64.rn` rounds to, at the scale of the comparison: the rounded magnitude with the sign of `z`. -/
theorem F64.exists_sign_rn {z : Int} {k : Nat} (hz : z.natAbs < (2 ^ 54 - 1) * 2 ^ (970 + k)) :
    ∃ ε : Int, ε.natAbs = 1 ∧ ε * z = z.natAbs ∧ ε * (F64.scaled (F64.rn z k) * 2 ^ k)
      = divHalfEven z.natAbs (2 ^ F64.ulpExponent z.natAbs k) * 2 ^ F64.ulpExponent z.natAbs k * 2 ^ 1074 := by
  obtain ⟨-, hs, hm⟩ := F64.rn_spec z k (F64.rounded_lt hz)
  have hu : k ≤ F64.ulpExponent z.natAbs k + 1074 := by unfold F64.ulpExponent; omega
  have hscale : (F64.magnitude (F64.rn z k) : Int) * 2 ^ k
      = divHalfEven z.natAbs (2 ^ F64.ulpExponent z.natAbs k) * 2 ^ F64.ulpExponent z.natAbs k * 2 ^ 1074 := by
    rw [hm, Nat.cast_mul, Nat.cast_pow, Nat.cast_two, mul_assoc, ← pow_add, Nat.sub_add_cancel hu, pow_add, ← mul_assoc]
  rw [← hscale]
  by_cases hneg : z < 0
  · refine ⟨-1, rfl, by omega, ?_⟩
    rw [F64.scaled_of_signbit_true (by rw [hs]; exact decide_eq_true hneg), neg_one_mul, neg_mul, neg_neg]
  · refine ⟨1, rfl, by omega, ?_⟩
    rw [F64.scaled_of_signbit_false (by rw [hs]; exact decide_eq_false hneg), one_mul]

/-- Settles O29: `F64.rounded_nearest` on the magnitudes, with the sign of `z` taken out of every distance. -/
theorem roundingIsToNearestEven : Obligations.RoundingIsToNearestEven := by
  intro z k hz
  obtain ⟨hfin, -, hmag⟩ := F64.rn_spec z k (F64.rounded_lt hz)
  refine ⟨hfin, fun y _ => ?_⟩
  obtain ⟨q, j, hy, hq, -⟩ := F64.magnitude_form y
  obtain ⟨ε, hε, hεz, hεrn⟩ := F64.exists_sign_rn hz
  have hY : (ε * F64.scaled y).natAbs = q * 2 ^ j := by
    rw [Int.natAbs_mul, hε, one_mul, F64.natAbs_scaled, hy]
  have hdist : ∀ a : Int, |a - z * 2 ^ 1074| = |ε * a - z.natAbs * 2 ^ 1074| := by
    intro a
    rw [← hεz, mul_assoc, ← mul_sub, abs_mul, Int.abs_eq_natAbs ε, hε, Nat.cast_one, one_mul]
  rw [hdist, hdist, hεrn, ← mul_assoc]
  obtain ⟨hle, htie⟩ := F64.rounded_nearest z.natAbs k hY hq
  refine ⟨hle, fun heq hne => F64.fraction_even hmag (F64.significand_le _ _) (htie heq fun hsame => hne ?_)⟩
  rw [← hεrn, mul_assoc] at hsame
  have hε0 : ε ≠ 0 := fun h => by rw [h] at hε; exact absurd hε (by decide)
  exact mul_right_cancel₀ (by positivity) (mul_left_cancel₀ hε0 hsame)

end Sys2Proof
end

section
/-! PROOFS. What the binary64 operations of the rules give (45_properties.md R122): exact where the result has at most 53 bits,
and never past a value that bounds the exact result. -/

namespace Sys2Proof

/-- `F64.rn` is exact on a multiple of the smallest place that fits 53 bits. -/
theorem F64.rn_exact_of_form {z : Int} {k q j : Nat} (hz : z.natAbs = q * 2 ^ j) (hq : q ≤ 2 ^ 53) (hj : k ≤ j + 1074)
    (hlt : z.natAbs * 2 ^ 1074 < 2 ^ (2098 + k)) :
    F64.isFinite (F64.rn z k) = true ∧ F64.scaled (F64.rn z k) * 2 ^ k = z * 2 ^ 1074 := by
  refine F64.rn_exact z k ?_ hlt
  rw [F64.ulpExponent, hz]
  rcases max_choice (Nat.log2 (q * 2 ^ j) - 52) (k - 1074) with h | h
  · rw [h]
    exact pow_log2_sub_dvd q j hq
  · rw [h]
    exact Dvd.dvd.mul_left (pow_dvd_pow 2 (by omega)) q

/-- A multiple `q * 2^j` of 2^-1074 with `q <= 2^53`, below 2^1024, is a binary64 value. -/
theorem F64.rn_scale_exact {z : Int} {q j : Nat} (hz : z.natAbs = q * 2 ^ j) (hq : q ≤ 2 ^ 53) (hlt : z.natAbs < 2 ^ 2098) :
    F64.isFinite (F64.rn z 1074) = true ∧ F64.scaled (F64.rn z 1074) = z := by
  have hlt' : z.natAbs * 2 ^ 1074 < 2 ^ (2098 + 1074) := by
    rw [pow_add]
    exact Nat.mul_lt_mul_of_pos_right hlt (Nat.two_pow_pos 1074)
  obtain ⟨hfin, hval⟩ := F64.rn_exact_of_form hz hq (Nat.le_add_left _ _) hlt'
  exact ⟨hfin, mul_right_cancel₀ (pow_ne_zero 1074 two_ne_zero) hval⟩

/-- Scaling by a power of 2 is exact below 2^1024 (43_encoder.md R67, R71). -/
theorem F64.scaleUp_exact {t : F64} {k : Nat} (hfin : F64.isFinite t = true) (hlt : F64.magnitude t * 2 ^ k < 2 ^ 2098) :
    F64.isFinite (F64.scaleUp t k) = true ∧ F64.scaled (F64.scaleUp t k) = F64.scaled t * 2 ^ k := by
  unfold F64.scaleUp
  split
  · rw [F64.scaled_of_isZero ‹_›, zero_mul]
    exact ⟨hfin, rfl⟩
  · obtain ⟨q, j, hm, hq, -⟩ := F64.magnitude_form t
    have habs : (F64.scaled t * 2 ^ k).natAbs = F64.magnitude t * 2 ^ k := by
      rw [Int.natAbs_mul, Int.natAbs_pow, F64.natAbs_scaled]
      rfl
    refine F64.rn_scale_exact (q := q) (j := j + k) ?_ hq.le (by rw [habs]; exact hlt)
    rw [habs, hm, pow_add, mul_assoc]

/-- A value nearer to `t` than `y` is does not lie beyond `y`. -/
theorem le_of_abs_sub_le_abs_sub {α : Type} [AddCommGroup α] [LinearOrder α] [IsOrderedAddMonoid α] {x y t : α}
    (hnear : |x - t| ≤ |y - t|) (hty : t ≤ y) : x ≤ y := by
  rw [abs_of_nonneg (sub_nonneg.2 hty)] at hnear
  exact (sub_le_sub_iff_right t).1 ((le_abs_self _).trans hnear)

theorem ge_of_abs_sub_le_abs_sub {α : Type} [AddCommGroup α] [LinearOrder α] [IsOrderedAddMonoid α] {x y t : α}
    (hnear : |x - t| ≤ |y - t|) (hyt : y ≤ t) : y ≤ x := by
  rw [abs_sub_comm x, abs_sub_comm y, abs_of_nonneg (sub_nonneg.2 hyt)] at hnear
  exact (sub_le_sub_iff_left t).1 ((le_abs_self _).trans hnear)

/-- Rounding does not pass a finite value above the exact one. -/
theorem F64.scaled_rn_le {z : Int} {k : Nat} {y : F64} (hz : z.natAbs < (2 ^ 54 - 1) * 2 ^ (970 + k))
    (hy : F64.isFinite y = true) (hle : z * 2 ^ 1074 ≤ F64.scaled y * 2 ^ k) : F64.scaled (F64.rn z k) ≤ F64.scaled y :=
  le_of_mul_le_mul_right (le_of_abs_sub_le_abs_sub ((roundingIsToNearestEven z k hz).2 y hy).1 hle) (by positivity)

/-- Rounding does not pass a finite value below the exact one. -/
theorem F64.le_scaled_rn {z : Int} {k : Nat} {y : F64} (hz : z.natAbs < (2 ^ 54 - 1) * 2 ^ (970 + k))
    (hy : F64.isFinite y = true) (hle : F64.scaled y * 2 ^ k ≤ z * 2 ^ 1074) : F64.scaled y ≤ F64.scaled (F64.rn z k) :=
  le_of_mul_le_mul_right (ge_of_abs_sub_le_abs_sub ((roundingIsToNearestEven z k hz).2 y hy).1 hle) (by positivity)

/-- Rounding to an integer has the sign of its operand. -/
theorem F64.exists_sign_roundHalfEven (t : F64) : ∃ ε : Int, ε.natAbs = 1 ∧ F64.scaled t = ε * F64.magnitude t
    ∧ F64.roundHalfEven t = ε * divHalfEven (F64.magnitude t) (2 ^ 1074) := by
  unfold F64.scaled F64.roundHalfEven
  cases F64.signbit t
  · exact ⟨1, rfl, (one_mul _).symm, (one_mul _).symm⟩
  · exact ⟨-1, rfl, (neg_one_mul _).symm, (neg_one_mul _).symm⟩

/-- Settles O30: the spec of `divHalfEven` on the magnitude, with the sign taken out. -/
theorem roundHalfEvenIsNearest : Obligations.RoundHalfEvenIsNearest := by
  intro t
  obtain ⟨ε, hε, hvalue, hround⟩ := F64.exists_sign_roundHalfEven t
  obtain ⟨hlow, hhigh, htie⟩ := divHalfEven_spec (F64.magnitude t) (2 ^ 1074) (Nat.two_pow_pos 1074)
  have hdist : |F64.scaled t - F64.roundHalfEven t * 2 ^ 1074|
      = |(F64.magnitude t : Int) - divHalfEven (F64.magnitude t) (2 ^ 1074) * 2 ^ 1074| := by
    rw [hvalue, hround, mul_assoc, ← mul_sub, abs_mul, Int.abs_eq_natAbs ε, hε, Nat.cast_one, one_mul]
  rw [hdist, Int.abs_eq_natAbs]
  zify at hlow hhigh
  generalize divHalfEven (F64.magnitude t) (2 ^ 1074) = q at *
  refine ⟨by omega, fun heq => ?_⟩
  have heven : q % 2 = 0 := htie (by zify; omega)
  rw [hround, Int.mul_emod, show (q : Int) % 2 = 0 by omega, mul_zero, Int.zero_emod]

end Sys2Proof
end

section
/-! PROOFS. `LN64` and `EXP64` meet their limits (43_encoder.md R67, 44_decoder.md R88), and so do the correctly rounded real
functions, by the bounds of the real ones. -/

namespace Sys2Proof.Machine

theorem allowedLog_iff (y : F64) :
    F64.allowedLog y = true ↔ F64.isFinite y = true ∧ F64.magnitude y < 1024 * 2 ^ 1074 := by
  simp [F64.allowedLog]

theorem allowedExp_iff (y : F64) : F64.allowedExp y = true ↔ F64.signbit y = false ∧ F64.isNormal y = true := by
  simp [F64.allowedExp]

theorem inExpDomain_iff (t : F64) : F64.inExpDomain t = true ↔
    F64.isFinite t = true ∧ -255 * 2 ^ 1073 ≤ F64.scaled t ∧ F64.scaled t ≤ 383 * 2 ^ 1073 := by
  simp only [F64.inExpDomain, Bool.and_eq_true, decide_eq_true_eq, and_assoc]

theorem finiteNonzero_iff (x : F64) : finiteNonzero x = true ↔ F64.isFinite x = true ∧ F64.isZero x = false := by
  simp [finiteNonzero]

theorem allowedLog_zero : F64.allowedLog F64.zero = true := by decide +kernel

theorem allowedExp_one : F64.allowedExp F64.one = true := by decide +kernel

theorem limitLog_limits (f : F64 → F64) : LogLimits (limitLog f) := by
  refine ⟨fun a _ _ => ?_, if_pos rfl⟩
  unfold limitLog
  split_ifs with hone hallowed
  · exact allowedLog_zero
  · exact hallowed
  · exact allowedLog_zero

theorem limitExp_limits (f : F64 → F64) : ExpLimits (limitExp f) := by
  refine ⟨fun t ht => ?_, if_pos rfl⟩
  unfold limitExp
  split_ifs with hzero hbad
  · exact allowedExp_one
  · exact allowedExp_one
  · simpa [ht] using hbad

theorem LN64_limits : LogLimits LN64 := limitLog_limits Config.ln64

theorem EXP64_limits : ExpLimits EXP64 := limitExp_limits Config.exp64

/-- Settles O31: `limitLog` and `limitExp` impose the limits, and replace only what breaks them. -/
theorem realFunctionsMeetTheirLimitsAndNoMore : Obligations.RealFunctionsMeetTheirLimitsAndNoMore := by
  refine ⟨LN64_limits, EXP64_limits, fun f hf a hsign ha => ?_, fun f hf t ht => ?_⟩
  · unfold limitLog
    split_ifs with hone hallowed
    · rw [hone, hf.2]
    · rfl
    · exact absurd (hf.1 a hsign ha) hallowed
  · unfold limitExp
    split_ifs with hzero hbad
    · rw [hzero, hf.2]
    · simp [hf.1 t ht] at hbad
    · rfl

/-- A rounding does not pass a finite value above the real. -/
theorem IsRoundingOf.scaled_le {t : ℝ} {x y : F64} (hx : IsRoundingOf t x) (hy : F64.isFinite y = true)
    (hle : t * 2 ^ 1074 ≤ F64.scaled y) : F64.scaled x ≤ F64.scaled y := by
  exact_mod_cast le_of_abs_sub_le_abs_sub (hx.2.2 y hy) hle

/-- A rounding does not pass a finite value below the real. -/
theorem IsRoundingOf.le_scaled {t : ℝ} {x y : F64} (hx : IsRoundingOf t x) (hy : F64.isFinite y = true)
    (hle : F64.scaled y ≤ t * 2 ^ 1074) : F64.scaled y ≤ F64.scaled x := by
  exact_mod_cast ge_of_abs_sub_le_abs_sub (hx.2.2 y hy) hle

/-- The real logarithm of a positive finite binary64 value lies in `[-1023, 1023]`. -/
theorem abs_log_le {a : F64} (hsign : F64.signbit a = false) (ha : finiteNonzero a = true) :
    |Real.log ((F64.scaled a : ℝ) / 2 ^ 1074)| ≤ 1023 := by
  obtain ⟨hfin, hzero⟩ := (finiteNonzero_iff a).1 ha
  have hpos : F64.magnitude a ≠ 0 := fun h => by
    rw [(F64.magnitude_eq_zero_iff a).1 h] at hzero
    exact absurd hzero (by decide)
  have hlt := F64.magnitude_lt_of_finite hfin
  have hlog2 := Real.log_two_lt_d9
  have hlog2pos := Real.log_pos (one_lt_two (α := ℝ))
  have hlow : (1 : ℝ) ≤ F64.magnitude a := by exact_mod_cast Nat.one_le_iff_ne_zero.2 hpos
  have hhigh : (F64.magnitude a : ℝ) ≤ 2 ^ 2098 := by exact_mod_cast hlt.le
  rw [F64.scaled_of_signbit_false hsign, Int.cast_natCast, Real.log_div (by positivity) (by positivity), Real.log_pow]
  have hlow' : 0 ≤ Real.log (F64.magnitude a) := Real.log_nonneg hlow
  have hhigh' : Real.log (F64.magnitude a) ≤ (2098 : ℕ) * Real.log 2 := by
    rw [← Real.log_pow]
    exact Real.log_le_log (by positivity) hhigh
  push_cast at hhigh' ⊢
  rw [abs_le]
  constructor <;> linarith

theorem two_pow_eq_exp (k : Nat) : (2 : ℝ) ^ k = Real.exp (k * Real.log 2) := by
  rw [← Real.log_pow, Real.exp_log (by positivity)]

/-- The real exponential on the domain of `EXP64` is at least `2^-1022`, the smallest normal value. -/
theorem le_exp {t : F64} (ht : F64.inExpDomain t = true) :
    (2 : ℝ) ^ 52 ≤ Real.exp ((F64.scaled t : ℝ) / 2 ^ 1074) * 2 ^ 1074 := by
  obtain ⟨-, hlow, -⟩ := (inExpDomain_iff t).1 ht
  have hlow' : -255 * (2 : ℝ) ^ 1073 ≤ F64.scaled t := by exact_mod_cast hlow
  have hpos : (0 : ℝ) < 2 ^ 1073 := by positivity
  have harg : -128 ≤ (F64.scaled t : ℝ) / 2 ^ 1074 := by
    rw [le_div_iff₀ (by positivity), pow_succ]
    generalize (2 : ℝ) ^ 1073 = half at *
    linarith
  have hlog2 := Real.log_two_gt_d9
  generalize (F64.scaled t : ℝ) / 2 ^ 1074 = x at *
  rw [two_pow_eq_exp 52, two_pow_eq_exp 1074, ← Real.exp_add, Real.exp_le_exp]
  push_cast
  linarith

/-- P3 implies P1 and P2: the real logarithm is within `[-1023, 1023]`, and `log 1 = 0`. -/
theorem RoundedLog.limits {ln : F64 → F64} (hln : RoundedLog ln) : LogLimits ln := by
  have hone : F64.signbit F64.one = false ∧ finiteNonzero F64.one = true := by decide +kernel
  refine ⟨fun a hsign ha => ?_, ?_⟩
  · have hround := hln a hsign ha
    obtain ⟨hlow, hhigh⟩ := abs_le.1 (abs_log_le hsign ha)
    have htop : F64.isFinite 0x408FF80000000000 = true ∧ F64.scaled 0x408FF80000000000 = 1023 * 2 ^ 1074 := by decide +kernel
    have hbottom : F64.isFinite 0xC08FF80000000000 = true ∧ F64.scaled 0xC08FF80000000000 = -1023 * 2 ^ 1074 := by
      decide +kernel
    have hscale : (0 : ℝ) ≤ 2 ^ 1074 := by positivity
    have hle := hround.scaled_le htop.1 (by
      rw [htop.2]
      push_cast
      exact mul_le_mul_of_nonneg_right hhigh hscale)
    have hge := hround.le_scaled hbottom.1 (by
      rw [hbottom.2]
      push_cast
      exact mul_le_mul_of_nonneg_right hlow hscale)
    refine (allowedLog_iff _).2 ⟨hround.1, ?_⟩
    rw [htop.2] at hle
    rw [hbottom.2] at hge
    rw [← F64.natAbs_scaled]
    omega
  · refine (hln F64.one hone.1 hone.2).2.1 ?_
    rw [F64.scaled_one]
    push_cast
    rw [div_self (by positivity), Real.log_one]

/-- Q3 implies Q1 and Q2: the real exponential is a normal magnitude on the domain, and `exp 0 = 1` is a value. -/
theorem RoundedExp.limits {exp : F64 → F64} (hexp : RoundedExp exp) : ExpLimits exp := by
  have hzero : F64.inExpDomain F64.zero = true := by decide +kernel
  refine ⟨fun t ht => ?_, ?_⟩
  · have hround := hexp t ht
    have hsmallest : F64.isFinite 0x0010000000000000 = true ∧ F64.scaled 0x0010000000000000 = 2 ^ 52 := by decide +kernel
    have hge := hround.le_scaled hsmallest.1 (by
      rw [hsmallest.2, Int.cast_pow, Int.cast_ofNat]
      exact le_exp ht)
    rw [hsmallest.2] at hge
    have hsign : F64.signbit (exp t) = false := by
      by_contra hsign
      rw [F64.scaled_of_signbit_true (Bool.eq_true_of_not_eq_false hsign)] at hge
      omega
    rw [F64.scaled_of_signbit_false hsign] at hge
    refine (allowedExp_iff _).2 ⟨hsign, (F64.isNormal_iff _).2 ⟨fun he => ?_, (F64.isFinite_iff _).1 hround.1⟩⟩
    have hsmall := (F64.exponent_eq_zero_iff _).1 he
    omega
  · have hround := hexp F64.zero hzero
    have hone : F64.isFinite F64.one = true := by decide +kernel
    have hreal : Real.exp ((F64.scaled F64.zero : ℝ) / 2 ^ 1074) * 2 ^ 1074 = F64.scaled F64.one := by
      rw [F64.scaled_zero, F64.scaled_one]
      push_cast
      rw [zero_div, Real.exp_zero, one_mul]
    have heq := le_antisymm (hround.scaled_le hone hreal.le) (hround.le_scaled hone hreal.ge)
    refine F64.eq_of_scaled_eq heq ?_
    rw [heq, F64.scaled_one]
    exact pow_ne_zero 1074 two_ne_zero

/-- Settles O32: `RoundedLog.limits` and `RoundedExp.limits`. -/
theorem correctlyRoundedFunctionsAreAdmitted : Obligations.CorrectlyRoundedFunctionsAreAdmitted :=
  ⟨fun _ => RoundedLog.limits, fun _ => RoundedExp.limits⟩

end Sys2Proof.Machine
end

section
/-! PROOFS. The arithmetic of ENCODE after the logarithm: exact at every step (43_encoder.md R67, R71), with the remainder in its
range (R76). -/

namespace Sys2Proof.Machine

/-- P1 speaks of the argument that ENCODE takes the logarithm of. -/
theorem allowedLog_fabs {ln : F64 → F64} (hln : LogLimits ln) {x : F64} (hx : finiteNonzero x = true) :
    F64.allowedLog (ln (F64.fabs x)) = true := by
  obtain ⟨hs, he, hf⟩ := F64.fabs_fields x
  refine hln.1 _ hs ?_
  rwa [finiteNonzero, F64.isFinite, F64.isZero, he, hf]

/-- Scaling by at most `2^59` is exact below `2^12`. -/
theorem scaleUp_exact_of_small {t : F64} (hfin : F64.isFinite t = true) (hsmall : F64.magnitude t < 2 ^ 12 * 2 ^ 1074)
    {k : Nat} (hk : k ≤ 59) : F64.isFinite (F64.scaleUp t k) = true ∧ F64.scaled (F64.scaleUp t k) = F64.scaled t * 2 ^ k := by
  refine F64.scaleUp_exact hfin ?_
  calc F64.magnitude t * 2 ^ k < 2 ^ 12 * 2 ^ 1074 * 2 ^ k := Nat.mul_lt_mul_of_pos_right hsmall (Nat.two_pow_pos k)
    _ = 2 ^ (12 + 1074 + k) := by rw [pow_add, pow_add]
    _ ≤ 2 ^ 2098 := Nat.pow_le_pow_right (by omega) (by omega)

/-- The doubled logarithm is exact, and below 2048 (43_encoder.md R67). -/
theorem exactLog_spec {ln : F64 → F64} (hln : LogLimits ln) {x : F64} (hx : finiteNonzero x = true) :
    F64.isFinite (exactLog ln x) = true ∧ F64.scaled (exactLog ln x) = 2 * F64.scaled (ln (F64.fabs x))
      ∧ F64.magnitude (exactLog ln x) < 2048 * 2 ^ 1074 := by
  obtain ⟨hfin, hlt⟩ := (allowedLog_iff _).1 (allowedLog_fabs hln hx)
  obtain ⟨hfin', hval⟩ := scaleUp_exact_of_small hfin (by omega) (k := 1) (by omega)
  have hval' : F64.scaled (exactLog ln x) = 2 * F64.scaled (ln (F64.fabs x)) := by
    rw [exactLog, F64.twice, hval, pow_one, mul_comm]
  refine ⟨hfin', hval', ?_⟩
  rw [← F64.natAbs_scaled] at hlt ⊢
  rw [hval']
  omega

/-- The clamp moves the rounded logarithm towards 0. -/
theorem clampedLog_cases (t : F64) : clampedLog t = F64.roundHalfEven t
    ∨ |clampedLog t| = 255 ∧ 256 ≤ |F64.roundHalfEven t| := by
  unfold clampedLog
  generalize F64.roundHalfEven t = R
  rw [Int.abs_eq_natAbs, Int.abs_eq_natAbs]
  omega

/-- Taking absolute values keeps the rounded logarithm within one half of the exact one. -/
theorem abs_roundHalfEven_sub (t : F64) : 2 * |(F64.magnitude t : Int) - |F64.roundHalfEven t| * 2 ^ 1074| ≤ 2 ^ 1074 := by
  have hscale : (0 : Int) < 2 ^ 1074 := pow_pos two_pos 1074
  have habs : (F64.magnitude t : Int) - |F64.roundHalfEven t| * 2 ^ 1074
      = |F64.scaled t| - |F64.roundHalfEven t * 2 ^ 1074| := by rw [F64.abs_scaled, abs_mul, abs_of_pos hscale]
  have hle := abs_abs_sub_abs_le (F64.scaled t) (F64.roundHalfEven t * 2 ^ 1074)
  have hnear := (roundHalfEvenIsNearest t).1
  rw [habs]
  linarith

/-- The integer logarithm is at most twice the exact one: taking it away leaves no more bits than there were. -/
theorem abs_clampedLog_le_two_mul (t : F64) : |clampedLog t| * 2 ^ 1074 ≤ 2 * (F64.magnitude t : Int) := by
  have hscale : (0 : Int) < 2 ^ 1074 := pow_pos two_pos 1074
  have hle : |clampedLog t| ≤ |F64.roundHalfEven t| := by
    obtain h | ⟨h, h'⟩ := clampedLog_cases t
    · rw [h]
    · omega
  have hnear' := abs_roundHalfEven_sub t
  have hmul : |clampedLog t| * 2 ^ 1074 ≤ |F64.roundHalfEven t| * 2 ^ 1074 := mul_le_mul_of_nonneg_right hle hscale.le
  refine hmul.trans ?_
  rcases (abs_nonneg (F64.roundHalfEven t)).eq_or_lt with hzero | hpos
  · rw [← hzero, zero_mul]
    exact mul_nonneg zero_le_two (Nat.cast_nonneg _)
  · have hone : 1 * 2 ^ 1074 ≤ |F64.roundHalfEven t| * 2 ^ 1074 := mul_le_mul_of_nonneg_right hpos hscale.le
    rw [Int.abs_eq_natAbs (_ - _)] at hnear'
    omega

/-- Below `2^53` the places of a value can be taken at or below the binary point. -/
theorem magnitude_form_of_lt {t : F64} (ht : F64.magnitude t < 2 ^ 53 * 2 ^ 1074) :
    ∃ q j, F64.magnitude t = q * 2 ^ j ∧ q < 2 ^ 53 ∧ j ≤ 1074 := by
  obtain ⟨q, j, hm, hq, -⟩ := F64.magnitude_form t
  rcases Nat.le_total j 1074 with hle | hge
  · exact ⟨q, j, hm, hq, hle⟩
  · have hm' : F64.magnitude t = q * 2 ^ (j - 1074) * 2 ^ 1074 := by
      rw [mul_assoc, ← pow_add, Nat.sub_add_cancel hge, hm]
    exact ⟨_, 1074, hm', lt_of_mul_lt_mul_right (hm' ▸ ht) (Nat.zero_le _), le_refl _⟩

/-- The remainder is exact: it has the places of the exact logarithm and is not larger (43_encoder.md R67). -/
theorem fractionalLog_exact {t : F64} (hfin : F64.isFinite t = true) (ht : F64.magnitude t < 2048 * 2 ^ 1074) :
    F64.isFinite (fractionalLog t (clampedLog t)) = true
      ∧ F64.scaled (fractionalLog t (clampedLog t)) = F64.magnitude t - |clampedLog t| * 2 ^ 1074 := by
  obtain ⟨q, j, hm, hq, hj⟩ := magnitude_form_of_lt (t := t) (by omega)
  have htwice := abs_clampedLog_le_two_mul t
  have hscale : (0 : Int) < 2 ^ 1074 := pow_pos two_pos 1074
  have hnonneg : 0 ≤ |clampedLog t| * 2 ^ 1074 := mul_nonneg (abs_nonneg _) hscale.le
  have hsmaller : ((F64.magnitude t : Int) - |clampedLog t| * 2 ^ 1074).natAbs ≤ F64.magnitude t := by omega
  have hplaces : (F64.magnitude t : Int) - |clampedLog t| * 2 ^ 1074 = (q - |clampedLog t| * 2 ^ (1074 - j)) * 2 ^ j := by
    rw [sub_mul, mul_assoc, ← pow_add, Nat.sub_add_cancel hj, hm]
    push_cast
    rfl
  have hform : ((F64.magnitude t : Int) - |clampedLog t| * 2 ^ 1074).natAbs
      = (q - |clampedLog t| * 2 ^ (1074 - j)).natAbs * 2 ^ j := by
    rw [hplaces, Int.natAbs_mul, Int.natAbs_pow]
    rfl
  have hbits : (q - |clampedLog t| * 2 ^ (1074 - j)).natAbs ≤ 2 ^ 53 := by
    rw [hform, hm] at hsmaller
    exact (le_of_mul_le_mul_right hsmaller (Nat.two_pow_pos j)).trans hq.le
  rw [fractionalLog, F64.subInt, F64.scaled_fabs, F64.abs_scaled, ← Int.abs_eq_natAbs]
  refine F64.rn_scale_exact hform hbits (lt_of_le_of_lt hsmaller (F64.magnitude_lt_of_finite hfin))

/-- The remainder is no larger than the exact logarithm. -/
theorem magnitude_fractionalLog_le {t : F64} (hfin : F64.isFinite t = true) (ht : F64.magnitude t < 2048 * 2 ^ 1074) :
    F64.magnitude (fractionalLog t (clampedLog t)) ≤ F64.magnitude t := by
  have htwice := abs_clampedLog_le_two_mul t
  have hnonneg : 0 ≤ |clampedLog t| * 2 ^ 1074 := mul_nonneg (abs_nonneg _) (pow_pos two_pos 1074).le
  rw [← F64.natAbs_scaled (fractionalLog t (clampedLog t)), (fractionalLog_exact hfin ht).2]
  omega

/-- The mantissa is the exact floor of the scaled remainder (43_encoder.md R71). -/
theorem mantissa_exact {t : F64} (hfin : F64.isFinite t = true) (ht : F64.magnitude t < 2048 * 2 ^ 1074) {mb : Nat}
    (hpos : 0 < mb) (hmb : mb ≤ 59) : mantissa (fractionalLog t (clampedLog t)) mb
      = F64.scaled (fractionalLog t (clampedLog t)) * 2 ^ mb / 2 ^ 1074 := by
  have hle := magnitude_fractionalLog_le hfin ht
  rw [mantissa, if_pos hpos, F64.floor,
    (scaleUp_exact_of_small (fractionalLog_exact hfin ht).1 (by omega) hmb).2]

/-- Settles O35: the three exactness lemmas, at the doubled logarithm. -/
theorem encodeIsExactAfterTheLogarithm : Obligations.EncodeIsExactAfterTheLogarithm := by
  intro ln hln x hx
  obtain ⟨hfin, hval, hlt⟩ := exactLog_spec hln hx
  obtain ⟨-, hfrac⟩ := fractionalLog_exact hfin hlt
  rw [← F64.abs_scaled] at hfrac
  refine ⟨hval, hfrac, fun mb hpos hmb => ?_⟩
  rw [mantissa_exact hfin hlt hpos hmb, hfrac]

/-- Settles O36: rounding leaves at most one half, and the clamp takes 255 from at least 255.5. -/
theorem fractionalLogStaysInItsRange : Obligations.FractionalLogStaysInItsRange := by
  intro ln hln x hx
  obtain ⟨hfin, -, hlt⟩ := exactLog_spec hln hx
  obtain ⟨-, hfrac⟩ := fractionalLog_exact hfin hlt
  have hnear := abs_roundHalfEven_sub (exactLog ln x)
  have hhalf : (2 : Int) ^ 1074 = 2 * 2 ^ 1073 := pow_succ' 2 1073
  simp only
  rw [hfrac]
  refine ⟨fun hsame => ?_, fun hne => ?_⟩
  · rw [hsame]
    rw [hhalf] at hnear ⊢
    exact abs_le.1 (le_of_mul_le_mul_left hnear two_pos)
  · obtain hsame | ⟨hclamp, hround⟩ := clampedLog_cases (exactLog ln x)
    · exact absurd hsame hne
    · have hmul : 256 * 2 ^ 1074 ≤ |F64.roundHalfEven (exactLog ln x)| * 2 ^ 1074 :=
        mul_le_mul_of_nonneg_right hround (pow_pos two_pos 1074).le
      rw [hclamp]
      rw [Int.abs_eq_natAbs (_ - _)] at hnear
      omega

/-- Up to one half in magnitude, rounding gives 0 (43_encoder.md R67). -/
theorem roundHalfEven_eq_zero {t : F64} (ht : 2 * F64.magnitude t ≤ 2 ^ 1074) : F64.roundHalfEven t = 0 := by
  obtain ⟨ε, -, -, hround⟩ := F64.exists_sign_roundHalfEven t
  obtain ⟨-, hhigh, htie⟩ := divHalfEven_spec (F64.magnitude t) (2 ^ 1074) (Nat.two_pow_pos 1074)
  have hq : divHalfEven (F64.magnitude t) (2 ^ 1074) = 0 := by
    generalize divHalfEven (F64.magnitude t) (2 ^ 1074) = q at *
    have hq1 : q ≤ 1 := Nat.le_of_mul_le_mul_right (c := 2 ^ 1074) (by omega) (Nat.two_pow_pos 1074)
    by_contra hne
    obtain rfl : q = 1 := by omega
    exact absurd (htie (by omega)) (by decide)
  rw [hround, hq, Nat.cast_zero, mul_zero]

/-- The parts of the word where the logarithm rounds to 0: only its magnitude is left of it. -/
theorem encodeParts_of_small {t : F64} (ht : 2 * F64.magnitude t ≤ 2 ^ 1074) (rom : BiasRom) (n : Width) (s : Bool) :
    encodeParts rom n s t
      = { s := s, d := true, r := 0, c := 0, m := mantissa (F64.subInt (F64.fabs t) 0) (mbits n 0) } := by
  have hl : clampedLog t = 0 := by rw [clampedLog, roundHalfEven_eq_zero ht]; rfl
  rw [encodeParts, hl]
  rfl

/-- Settles O40: `encodeParts_of_small` for the logarithm and its negation, which have one absolute value. -/
theorem logarithmSignIsLostNearOne : Obligations.LogarithmSignIsLostNearOne := by
  intro n s t ht
  have hneg : 2 * F64.magnitude (F64.neg t) ≤ 2 ^ 1074 := by rwa [F64.magnitude_neg]
  rw [encodeParts_of_small ht, encodeParts_of_small hneg, F64.fabs_neg]
  exact ⟨rfl, rfl, rfl, rfl⟩

end Sys2Proof.Machine
end

section
/-! PROOFS. The word of ENCODE: its assembly, its sign, and its leading bits (43_encoder.md R65, R72 to R80). -/

namespace Sys2Proof.Machine

theorem exec_encode_of_legal {s : State} (hs : s.hardwired = true) {n : Width} {bits : BitsOperand} (hn : bits.toNat = n.bits)
    (x : Data) : exec (.encode bits x) s
      = .next (s.deliver (Response.data (encodeResult biasRomContents (cfgRecordOf n) LN64 n x))) := by
  rw [exec_of_hardwired hs, hardwiredResponse, responseOf, answerAtWidth_of_legal hn, CfgTable.read_contents]

/-- NaN and the infinities encode to the NaR word (43_encoder.md R65). -/
theorem encodeResult_of_not_finite (rom : BiasRom) (cfg : CfgRecord) (ln : F64 → F64) (n : Width) {x : F64}
    (hx : F64.isFinite x = false) : encodeResult rom cfg ln n x = cfg.narPattern := by
  have he : F64.exponent x = 0x7FF := by simpa [F64.isFinite] using hx
  have hspecial : (F64.isNaN x || F64.isInf x) = true := by
    simp only [F64.isNaN, F64.isInf, he]
    cases h : F64.fraction x == 0 <;> simp [bne, h]
  rw [encodeResult, if_pos hspecial]

theorem isNaN_or_isInf_of_finite {x : F64} (hx : F64.isFinite x = true) : ¬ (F64.isNaN x || F64.isInf x) = true := by
  have he := (F64.isFinite_iff x).1 hx
  simp [F64.isNaN, F64.isInf, he]

/-- The zeros encode to the zero word (43_encoder.md R65). -/
theorem encodeResult_of_isZero (rom : BiasRom) (cfg : CfgRecord) (ln : F64 → F64) (n : Width) {x : F64}
    (hx : F64.isZero x = true) : encodeResult rom cfg ln n x = 0 := by
  rw [encodeResult, if_neg (isNaN_or_isInf_of_finite (F64.isFinite_of_isZero hx)), if_pos hx]

theorem encodeResult_of_finiteNonzero (rom : BiasRom) (cfg : CfgRecord) (ln : F64 → F64) (n : Width) {x : F64}
    (hx : finiteNonzero x = true) : encodeResult rom cfg ln n x = sext64 n (encodeFinite rom ln n x) := by
  obtain ⟨hfin, hzero⟩ := (finiteNonzero_iff x).1 hx
  rw [encodeResult, if_neg (isNaN_or_isInf_of_finite hfin), if_neg (ne_true_of_eq_false hzero)]

theorem cfgRecordOf_narPattern (n : Width) :
    (cfgRecordOf n).narPattern = (BitVec.ofNat n.bits (2 ^ (n.bits - 1))).signExtend 64 :=
  congrArg CfgRecord.narPattern (cfgRecordOf_eq n)

/-- Settles O33, by the two special branches of `encodeResult`. -/
theorem encodeAnswersSpecialValuesInBand : Obligations.EncodeAnswersSpecialValuesInBand := by
  intro n bits x s hs hn
  refine ⟨fun hx => ?_, fun hx => ?_⟩
  · have hinf : F64.isFinite x = false := by rw [F64.isFinite, hx]; rfl
    rw [exec_encode_of_legal hs hn, encodeResult_of_not_finite _ _ _ _ hinf, cfgRecordOf_narPattern]
    rfl
  · have hzero : F64.isZero x = true := by rcases hx with rfl | rfl <;> decide +kernel
    rw [exec_encode_of_legal hs hn, encodeResult_of_isZero _ _ _ _ hzero]
    rfl

/-- `pack` with its shifts written as products (30_encoding.md R47). -/
theorem pack_eq (n : Width) (p : WordParts) : pack n p =
    ((if p.s then 2 ^ (n.bits - 1) else 0) ||| (if p.d then 2 ^ (n.bits - 2) else 0) ||| p.r.val * 2 ^ (n.bits - 5)
      ||| lowBits p.c p.r.val * 2 ^ mbits n p.r ||| lowBits p.m (mbits n p.r)) % 2 ^ n.bits := by
  have hflag : ∀ (b : Bool) (k : Nat), b.toNat <<< k = if b then 2 ^ k else 0 := by
    intro b k
    cases b <;> simp [Nat.shiftLeft_eq]
  simp only [pack, hflag, Nat.shiftLeft_eq]

/-- The characteristic with the bias written out (43_encoder.md R70). -/
theorem characteristic_eq (l : Int) (r : Regime) : characteristic biasRomContents l r =
    if r.val = 0 then 0 else if 0 ≤ l then l - (2 ^ (r.val + 1) - 1) else 2 ^ (r.val + 1) - 1 - 1 - |l| := by
  rw [characteristic, BiasRom.intCast_read_contents, Int.abs_eq_natAbs]
  simp only [Fin.ext_iff, Fin.val_zero]

/-- Settles O34: `pack_eq` and `characteristic_eq` at the parts of a finite non-zero value. -/
theorem encodeFollowsItsSteps : Obligations.EncodeFollowsItsSteps := by
  intro n bits x s hs hn hx lExact l lFrac r bias c mb m p
  have hword : encodeFinite biasRomContents LN64 n x = p := by
    rw [encodeFinite, pack_eq]
    simp only [encodeParts, characteristic_eq, decide_eq_true_eq]
    rfl
  rw [exec_encode_of_legal hs hn, encodeResult_of_finiteNonzero _ _ _ _ hx, hword]
  rfl

/-- The sign stands alone in the top bit, so flipping it flips that bit and no other. -/
theorem pack_flip_sign (n : Width) (p : WordParts) : pack n { p with s := !p.s } = pack n p ^^^ 2 ^ (n.bits - 1) := by
  refine Nat.eq_of_testBit_eq fun i => ?_
  rw [Nat.testBit_xor, Nat.testBit_two_pow]
  by_cases hi : n.bits - 1 = i
  · subst hi
    rw [pack_testBit_sign, pack_testBit_sign, decide_eq_true rfl, Bool.xor_true]
  · rw [pack_testBit, pack_testBit, decide_eq_false hi, decide_eq_false (Ne.symm hi), Bool.xor_false, Bool.and_false,
      Bool.and_false]

/-- Settles O38: the logarithm is of `fabs x`, so only the sign of the parts differs. -/
theorem encodeSignSymmetry : Obligations.EncodeSignSymmetry := by
  intro ln n x _
  rw [encodeFinite, encodeFinite, exactLog, exactLog, F64.fabs_neg, (F64.neg_fields x).1, ← pack_flip_sign]
  rfl

/-- A set bit below the top one keeps a word from being zero or NaR. -/
theorem ne_zero_and_ne_of_testBit {n : Width} {u i : Nat} (hi : i < n.bits - 1) (hbit : u.testBit i = true) :
    u ≠ 0 ∧ u ≠ 2 ^ (n.bits - 1) := by
  refine ⟨?_, ?_⟩
  · rintro rfl
    simp at hbit
  · rintro rfl
    rw [Nat.testBit_two_pow, decide_eq_true_eq] at hbit
    omega

/-- A packed word with direction 1, or with a regime other than 0, is neither zero nor NaR. -/
theorem pack_ne_zero_and_ne {n : Width} {p : WordParts} (hp : p.d = true ∨ p.r ≠ 0) :
    pack n p ≠ 0 ∧ pack n p ≠ 2 ^ (n.bits - 1) := by
  have hn := Width.eight_le_bits n
  rcases hp with hd | hr
  · refine ne_zero_and_ne_of_testBit (i := n.bits - 2) (by omega) ?_
    have hlt : n.bits - 2 < n.bits := by omega
    simp [pack_testBit, hd, hlt]
  · obtain ⟨j, hj⟩ : ∃ j, p.r.val.testBit j = true := Nat.exists_testBit_of_ne_zero (Fin.val_ne_zero_iff.2 hr)
    have hj3 : j < 3 := by
      by_contra hge
      rw [Regime.testBit_of_le p.r (Nat.le_of_not_lt hge)] at hj
      exact Bool.false_ne_true hj
    refine ne_zero_and_ne_of_testBit (i := n.bits - 5 + j) (by omega) ?_
    have hlt : n.bits - 5 + j < n.bits := by omega
    simp [pack_testBit, hj, hlt]

/-- Settles O39: a negative logarithm is not 0, so its regime is not. -/
theorem encodeOfAFiniteValueIsAFiniteWord : Obligations.EncodeOfAFiniteValueIsAFiniteWord := by
  intro ln n x _
  refine ⟨pack_lt n _, pack_ne_zero_and_ne ?_⟩
  by_cases hl : 0 ≤ clampedLog (exactLog ln x)
  · exact .inl (decide_eq_true hl)
  · exact .inr fun hr => hl (Int.natAbs_eq_zero.1 ((regimeOf_eq_zero _).1 hr)).ge

/-- The fraction of `x / 2^k`, scaled by `2^w` and floored, is what `w` bits hold of the scaled floor. -/
theorem scaledFloor_emod (x : Int) (w k : Nat) : x * 2 ^ w / 2 ^ k % 2 ^ w = x % 2 ^ k * 2 ^ w / 2 ^ k := by
  have hk : (0 : Int) < 2 ^ k := by positivity
  have hw : (0 : Int) < 2 ^ w := by positivity
  have hsplit : x * 2 ^ w = x % 2 ^ k * 2 ^ w + x / 2 ^ k * 2 ^ w * 2 ^ k := by
    conv_lhs => rw [← Int.emod_add_mul_ediv x (2 ^ k)]
    ring
  have hlt : x % 2 ^ k * 2 ^ w / 2 ^ k < 2 ^ w := by
    refine Int.ediv_lt_of_lt_mul hk ?_
    rw [mul_comm]
    exact mul_lt_mul_of_pos_left (Int.emod_lt_of_pos x hk) hw
  rw [hsplit, Int.add_mul_ediv_right _ _ hk.ne', Int.add_mul_emod_self_right]
  exact Int.emod_eq_of_lt (Int.ediv_nonneg (mul_nonneg (Int.emod_nonneg x hk.ne') hw.le) hk.le) hlt

/-- The mantissa field is the fraction of the remainder, floored to the bits it has, none included. -/
theorem mantissaField_eq {t : F64} (hfin : F64.isFinite t = true) (ht : F64.magnitude t < 2048 * 2 ^ 1074) {mb : Nat}
    (hmb : mb ≤ 59) : (lowBits (mantissa (fractionalLog t (clampedLog t)) mb) mb : Int)
      = F64.scaled (fractionalLog t (clampedLog t)) % 2 ^ 1074 * 2 ^ mb / 2 ^ 1074 := by
  rw [lowBits_cast]
  rcases Nat.eq_zero_or_pos mb with rfl | hpos
  · rw [pow_zero, Int.emod_one, mul_one]
    exact (Int.ediv_eq_zero_of_lt (Int.emod_nonneg _ (pow_ne_zero 1074 two_ne_zero))
      (Int.emod_lt_of_pos _ (pow_pos two_pos 1074))).symm
  · rw [mantissa_exact hfin ht hpos hmb]
    exact scaledFloor_emod _ mb 1074

/-- A shorter mantissa field is the leading bits of a longer one. -/
theorem mantissaField_div {t : F64} (hfin : F64.isFinite t = true) (ht : F64.magnitude t < 2048 * 2 ^ 1074) {mb k : Nat}
    (hmb : mb + k ≤ 59) : lowBits (mantissa (fractionalLog t (clampedLog t)) mb) mb
      = lowBits (mantissa (fractionalLog t (clampedLog t)) (mb + k)) (mb + k) / 2 ^ k := by
  have hk : (0 : Int) < 2 ^ k := by positivity
  zify
  rw [mantissaField_eq hfin ht (by omega), mantissaField_eq hfin ht hmb, pow_add, ← mul_assoc, Int.ediv_ediv_of_nonneg,
    Int.mul_ediv_mul_of_pos_left _ _ hk]
  exact (pow_pos two_pos 1074).le

/-- Where the fields fit, a narrow word with the leading bits of the mantissa is the leading bits of the wide word. -/
theorem pack_eq_div {n : Width} {p : WordParts} {m : Int} (hfit : 5 + p.r.val ≤ n.bits)
    (hm : lowBits p.m (mbits n p.r) = lowBits m (mbits .w64 p.r) / 2 ^ (64 - n.bits)) :
    pack n p = pack .w64 { p with m := m } / 2 ^ (64 - n.bits) := by
  have hn := Width.eight_le_bits n
  have hn64 := Width.bits_le n
  have hsum := overhead_add_mbits hfit
  have hsum64 : 5 + p.r.val + mbits .w64 p.r = 64 := overhead_add_mbits (n := .w64) (hfit.trans hn64)
  refine Nat.eq_of_testBit_eq fun i => ?_
  have hword : i + (64 - n.bits) < 64 ↔ i < n.bits := by omega
  have hsign : i + (64 - n.bits) = 64 - 1 ↔ i = n.bits - 1 := by omega
  have hdirection : i + (64 - n.bits) = 64 - 2 ↔ i = n.bits - 2 := by omega
  have hregime : 64 - 5 ≤ i + (64 - n.bits) ↔ n.bits - 5 ≤ i := by omega
  have hregimeBit : i + (64 - n.bits) - (64 - 5) = i - (n.bits - 5) := by omega
  have hchar : mbits .w64 p.r ≤ i + (64 - n.bits) ↔ mbits n p.r ≤ i := by omega
  have hcharBit : i + (64 - n.bits) - mbits .w64 p.r = i - mbits n p.r := by omega
  rw [Nat.testBit_div_two_pow, pack_testBit, pack_testBit, hm, Nat.testBit_div_two_pow]
  simp only [Width.bits_w64, hword, hsign, hdirection, hregime, hregimeBit, hchar, hcharBit]

/-- The words of one value at two widths differ in the mantissa only. -/
theorem encodeFinite_eq_div {ln : F64 → F64} (hln : LogLimits ln) {x : F64} (hx : finiteNonzero x = true) {n : Width}
    (hfit : 5 + (regimeOf (clampedLog (exactLog ln x)).natAbs).val ≤ n.bits) : encodeFinite biasRomContents ln n x
      = encodeFinite biasRomContents ln .w64 x / 2 ^ (64 - n.bits) := by
  obtain ⟨hfin, -, hlt⟩ := exactLog_spec hln hx
  have hn64 := Width.bits_le n
  have hmbits : mbits .w64 (regimeOf (clampedLog (exactLog ln x)).natAbs)
      = mbits n (regimeOf (clampedLog (exactLog ln x)).natAbs) + (64 - n.bits) := by
    simp only [mbits, Width.bits_w64]
    omega
  refine pack_eq_div hfit ?_
  simp only [encodeParts, hmbits]
  exact mantissaField_div hfin hlt (hmbits ▸ mbits_le _ _)

/-- Settles O41: `encodeFinite_eq_div` at each narrow width, where 16 and 32 bits are enough for every regime. -/
theorem narrowWordsArePrefixesOfTheWideWord : Obligations.NarrowWordsArePrefixesOfTheWideWord := by
  intro ln hln x hx
  have hr := (regimeOf (clampedLog (exactLog ln x)).natAbs).isLt
  refine ⟨encodeFinite_eq_div hln hx (n := .w16) ?_, encodeFinite_eq_div hln hx (n := .w32) ?_,
    fun hr3 => encodeFinite_eq_div hln hx (n := .w8) ?_⟩
  · rw [Width.bits_w16]
    omega
  · rw [Width.bits_w32]
    omega
  · rw [Width.bits_w8]
    omega

end Sys2Proof.Machine
end

section
/-! PROOFS. The three classes of word that DECODE tells apart (30_encoding.md R39, 44_decoder.md R82, R89), and its steps on a
finite word (R85 to R90). -/

namespace Sys2Proof.Machine

theorem exec_decode_of_legal {s : State} (hs : s.hardwired = true) {n : Width} {bits : BitsOperand} (hn : bits.toNat = n.bits)
    (data : Data) : exec (.decode bits data) s
      = .next (s.deliver (decodeResult biasRomContents (cfgRecordOf n) EXP64 n (wordOperand n data))) := by
  rw [exec_of_hardwired hs, hardwiredResponse, responseOf, answerAtWidth_of_legal hn, CfgTable.read_contents]

/-- Settles O44: the only use of `data` is the word operand, its low part. -/
theorem decodeIgnoresTheUpperBits : Obligations.DecodeIgnoresTheUpperBits := by
  intro n bits data data' s hn hlow
  rw [exec_eq_deliver, exec_eq_deliver, responseOf, responseOf, answerAtWidth_of_legal hn, answerAtWidth_of_legal hn,
    wordOperand_eq, wordOperand_eq, hlow]

/-- The NaR word of a width, read from its pattern on the port. -/
theorem wordOperand_narPattern (n : Width) : wordOperand n (cfgRecordOf n).narPattern = 2 ^ (n.bits - 1) := by
  have hn := Width.eight_le_bits n
  rw [cfgRecordOf_narPattern]
  exact wordOperand_sext64 (Nat.pow_lt_pow_right (by omega) (by omega))

theorem decodeResult_of_nar (rom : BiasRom) (exp : F64 → F64) (n : Width) :
    decodeResult rom (cfgRecordOf n) exp n (2 ^ (n.bits - 1)) = Response.narSentinel := by
  rw [decodeResult, wordOperand_narPattern, classOf, if_pos rfl]

theorem decodeResult_of_zero (rom : BiasRom) (exp : F64 → F64) (n : Width) :
    decodeResult rom (cfgRecordOf n) exp n 0 = Response.data 0 := by
  rw [decodeResult, wordOperand_narPattern, classOf, if_neg (Nat.two_pow_pos _).ne, if_pos rfl]

theorem decodeResult_of_finite (rom : BiasRom) (exp : F64 → F64) {n : Width} {u : Nat} (hzero : u ≠ 0)
    (hnar : u ≠ 2 ^ (n.bits - 1)) :
    decodeResult rom (cfgRecordOf n) exp n u = Response.data (decodeFinite rom exp n u) := by
  rw [decodeResult, wordOperand_narPattern, classOf, if_neg hnar, if_neg hzero]

/-- Settles O42, by the two special classes. -/
theorem decodeAnswersNarAndZeroInBand : Obligations.DecodeAnswersNarAndZeroInBand := by
  intro n bits data s hs hn
  rw [exec_decode_of_legal hs hn, wordOperand]
  refine ⟨fun hnar => ?_, fun hzero => ?_⟩
  · rw [hnar, decodeResult_of_nar]
    rfl
  · rw [hzero, decodeResult_of_zero]
    rfl

/-- The integer logarithm with the bias written out (44_decoder.md R86). -/
theorem decodedLog_eq (f : WordFields) : decodedLog biasRomContents f =
    if f.D = true then (if f.r.val = 0 then 0 else (2 ^ (f.r.val + 1) - 1) + (f.C : Int))
    else (if f.r.val = 0 then -1 else (f.C : Int) - (2 ^ (f.r.val + 1) - 1)) := by
  split_ifs with hD hr hr
  · exact decodedLog_nonnegative_of_regime_zero _ hD (Fin.ext hr)
  · exact decodedLog_nonnegative_of_regime_pos hD (Nat.pos_of_ne_zero hr)
  · exact decodedLog_negative_of_regime_zero _ (Bool.eq_false_of_not_eq_true hD) (Fin.ext hr)
  · exact decodedLog_negative_of_regime_pos (Bool.eq_false_of_not_eq_true hD) (Nat.pos_of_ne_zero hr)

/-- The two flags of a word as quotients. -/
theorem unpack_flags (n : Width) (u : Nat) : ((unpack n u).S = true ↔ u / 2 ^ (n.bits - 1) % 2 = 1)
    ∧ ((unpack n u).D = true ↔ u / 2 ^ (n.bits - 2) % 2 = 1) := by
  simp only [unpack, Nat.testBit_eq_decide_div_mod_eq, decide_eq_true_eq, and_self]

/-- Settles O43: each field of `unpack` as a quotient, and `decodedLog_eq`. -/
theorem decodeFollowsItsSteps : Obligations.DecodeFollowsItsSteps := by
  intro n bits data s hs hn u hzero hnar S D r mb C M bias l lFloat mag
  obtain ⟨hS, hD⟩ := unpack_flags n u
  have hr : (unpack n u).r.val = r := unpack_r_val n u
  have hmb : mbits n (unpack n u).r = mb := by rw [mbits, hr]
  have hC : (unpack n u).C = C := by rw [unpack_C, hmb, hr]
  have hM : (unpack n u).M = M := by rw [unpack_M, hmb]
  have hl : decodedLog biasRomContents (unpack n u) = l := by
    rw [decodedLog_eq, hr, hC]
    simp only [hD]
    rfl
  have hfloat : decodedFloatLog biasRomContents n (unpack n u) = lFloat := by
    rw [decodedFloatLog]
    simp only [hl, hmb, hM]
    rfl
  have hvalue : decodeFinite biasRomContents EXP64 n u = if S = 1 then 0x8000000000000000 ||| mag else mag := by
    rw [decodeFinite]
    simp only [hfloat, hS, BitVec.or_comm]
    rfl
  rw [exec_decode_of_legal hs hn, wordOperand, decodeResult_of_finite _ _ hzero hnar, hvalue]
  rfl

end Sys2Proof.Machine
end

section
/-! PROOFS. The argument of the exponential (44_decoder.md R87, R88): exact below width 64, and within its domain at every width,
since rounding does not pass the ends. -/

namespace Sys2Proof.Machine

/-- The fraction of a word is exact where it has at most 53 bits (44_decoder.md R87). -/
theorem fractionOf_exact {M mb : Nat} (hM : M < 2 ^ mb) (hmb : mb ≤ 53) :
    F64.scaled (F64.fractionOf M mb) = M * 2 ^ (1074 - mb) := by
  have hlt : (M : Int).natAbs * 2 ^ 1074 < 2 ^ (2098 + mb) := by
    calc (M : Int).natAbs * 2 ^ 1074 < 2 ^ mb * 2 ^ 1074 := Nat.mul_lt_mul_of_pos_right hM (Nat.two_pow_pos 1074)
      _ = 2 ^ (mb + 1074) := (pow_add 2 mb 1074).symm
      _ ≤ 2 ^ (2098 + mb) := Nat.pow_le_pow_right (by omega) (by omega)
  obtain ⟨-, hval⟩ := F64.rn_exact_of_form (z := M) (k := mb) (q := M) (j := 0) (by simp)
    (hM.le.trans (Nat.pow_le_pow_right (by omega) hmb)) (by omega) hlt
  refine mul_right_cancel₀ (pow_ne_zero mb two_ne_zero) (hval.trans ?_)
  rw [mul_assoc, ← pow_add, Nat.sub_add_cancel (by omega)]

/-- The integers of the rules are binary64 values. -/
theorem ofInt_exact {l : Int} (hl : l.natAbs ≤ 2 ^ 53) :
    F64.isFinite (F64.ofInt l) = true ∧ F64.scaled (F64.ofInt l) = l * 2 ^ 1074 := by
  have hlt : l.natAbs * 2 ^ 1074 < 2 ^ (2098 + 0) := by
    calc l.natAbs * 2 ^ 1074 ≤ 2 ^ 53 * 2 ^ 1074 := Nat.mul_le_mul_right _ hl
      _ = 2 ^ (53 + 1074) := (pow_add 2 53 1074).symm
      _ < 2 ^ (2098 + 0) := Nat.pow_lt_pow_right (by omega) (by omega)
  obtain ⟨hfin, hval⟩ := F64.rn_exact_of_form (z := l) (k := 0) (q := l.natAbs) (j := 0) (by simp) hl (by omega) hlt
  rw [pow_zero, mul_one] at hval
  exact ⟨hfin, hval⟩

/-- The sum of the integer logarithm and an exact fraction is exact where its bits fit (44_decoder.md R87). -/
theorem addInt_fractionOf_exact {M mb : Nat} {l : Int} (hM : M < 2 ^ mb) (hmb : mb ≤ 27) (hl : -255 ≤ l ∧ l ≤ 382) :
    F64.scaled (F64.addInt (F64.fractionOf M mb) l) = M * 2 ^ (1074 - mb) + l * 2 ^ 1074 := by
  have hbig : (2 : Nat) ^ mb ≤ 2 ^ 27 := Nat.pow_le_pow_right (by omega) hmb
  have hsum : (M : Int) * 2 ^ (1074 - mb) + l * 2 ^ 1074 = (M + l * 2 ^ mb) * 2 ^ (1074 - mb) := by
    rw [add_mul, mul_assoc, ← pow_add, Nat.add_sub_cancel' (by omega)]
  have hform : ((M : Int) * 2 ^ (1074 - mb) + l * 2 ^ 1074).natAbs = (M + l * 2 ^ mb).natAbs * 2 ^ (1074 - mb) := by
    rw [hsum, Int.natAbs_mul, Int.natAbs_pow]
    rfl
  have hbits : ((M : Int) + l * 2 ^ mb).natAbs ≤ 2 ^ 53 := by
    have hpow : (2 : Int) ^ mb ≤ 2 ^ 27 := by exact_mod_cast hbig
    have hpow0 : (0 : Int) < 2 ^ mb := by positivity
    have hM' : (M : Int) < 2 ^ mb := by exact_mod_cast hM
    have hlow : -255 * 2 ^ mb ≤ l * 2 ^ mb := mul_le_mul_of_nonneg_right hl.1 hpow0.le
    have hhigh : l * 2 ^ mb ≤ 382 * 2 ^ mb := mul_le_mul_of_nonneg_right hl.2 hpow0.le
    omega
  rw [F64.addInt, fractionOf_exact hM (by omega)]
  refine (F64.rn_scale_exact hform hbits ?_).2
  rw [hform]
  calc (M + l * 2 ^ mb).natAbs * 2 ^ (1074 - mb) ≤ 2 ^ 53 * 2 ^ (1074 - mb) := Nat.mul_le_mul_right _ hbits
    _ = 2 ^ (53 + (1074 - mb)) := (pow_add 2 53 _).symm
    _ < 2 ^ 2098 := Nat.pow_lt_pow_right (by omega) (by omega)

/-- Settles O48: below width 64 the mantissa has at most 27 bits, so fraction and sum are exact. -/
theorem floatLogIsExactBelowWidth64 : Obligations.FloatLogIsExactBelowWidth64 := by
  intro n u hn _
  have hl := decodedLog_range (unpack_C_lt n u)
  have hM := unpack_M_lt n u
  have hmb : mbits n (unpack n u).r ≤ 27 := by
    cases n <;> simp [mbits] at hn ⊢ <;> omega
  simp only [decodedFloatLog]
  generalize decodedLog biasRomContents (unpack n u) = l at *
  generalize mbits n (unpack n u).r = mb at *
  generalize (unpack n u).M = M at *
  split_ifs with hpos
  · rw [addInt_fractionOf_exact hM hmb hl, add_mul, mul_assoc, ← pow_add, Nat.sub_add_cancel (by omega), add_mul]
    ring
  · obtain rfl : mb = 0 := by omega
    obtain rfl : M = 0 := by simpa using hM
    rw [(ofInt_exact (by omega)).2]
    simp

/-- The rounded fraction of a word lies in `[0, 1]`. -/
theorem fractionOf_range {M mb : Nat} (hM : M < 2 ^ mb) :
    0 ≤ F64.scaled (F64.fractionOf M mb) ∧ F64.scaled (F64.fractionOf M mb) ≤ 2 ^ 1074 := by
  have hz : (M : Int).natAbs < (2 ^ 54 - 1) * 2 ^ (970 + mb) := by
    calc (M : Int).natAbs < 2 ^ mb := hM
      _ ≤ 2 ^ (970 + mb) := Nat.pow_le_pow_right (by omega) (by omega)
      _ ≤ (2 ^ 54 - 1) * 2 ^ (970 + mb) := Nat.le_mul_of_pos_left _ (by omega)
  have hM' : (M : Int) ≤ 2 ^ mb := by exact_mod_cast hM.le
  have hlow := F64.le_scaled_rn (y := F64.zero) hz (by decide +kernel) (by
    rw [F64.scaled_zero, zero_mul]
    exact mul_nonneg (Nat.cast_nonneg _) (pow_pos two_pos 1074).le)
  have hhigh := F64.scaled_rn_le (y := F64.one) hz (by decide +kernel) (by
    rw [F64.scaled_one, mul_comm]
    exact mul_le_mul_of_nonneg_left hM' (pow_pos two_pos 1074).le)
  rw [F64.scaled_zero] at hlow
  rw [F64.scaled_one] at hhigh
  exact ⟨hlow, hhigh⟩

/-- Adding the integer logarithm to a fraction in `[0, 1]` stays in `[-255, 383]`. -/
theorem addInt_range {t : F64} {l : Int} (ht : 0 ≤ F64.scaled t ∧ F64.scaled t ≤ 2 ^ 1074) (hl : -255 ≤ l ∧ l ≤ 382) :
    F64.isFinite (F64.addInt t l) = true ∧ -255 * 2 ^ 1074 ≤ F64.scaled (F64.addInt t l)
      ∧ F64.scaled (F64.addInt t l) ≤ 383 * 2 ^ 1074 := by
  have hscale : (0 : Int) < 2 ^ 1074 := pow_pos two_pos 1074
  have htop : F64.isFinite 0x4077F00000000000 = true ∧ F64.scaled 0x4077F00000000000 = 383 * 2 ^ 1074 := by decide +kernel
  have hbottom : F64.isFinite 0xC06FE00000000000 = true ∧ F64.scaled 0xC06FE00000000000 = -255 * 2 ^ 1074 := by
    decide +kernel
  have hlow : -255 * 2 ^ 1074 ≤ l * 2 ^ 1074 := mul_le_mul_of_nonneg_right hl.1 hscale.le
  have hhigh : l * 2 ^ 1074 ≤ 382 * 2 ^ 1074 := mul_le_mul_of_nonneg_right hl.2 hscale.le
  have hz : (F64.scaled t + l * 2 ^ 1074).natAbs < (2 ^ 54 - 1) * 2 ^ (970 + 1074) := by
    rw [pow_add, ← mul_assoc]
    omega
  have hge := F64.le_scaled_rn hz hbottom.1 (by rw [hbottom.2]; exact mul_le_mul_of_nonneg_right (by omega) hscale.le)
  have hle := F64.scaled_rn_le hz htop.1 (by rw [htop.2]; exact mul_le_mul_of_nonneg_right (by omega) hscale.le)
  rw [hbottom.2] at hge
  rw [htop.2] at hle
  exact ⟨(roundingIsToNearestEven _ _ hz).1, hge, hle⟩

/-- Halving a value in `[-255, 383]` gives one in the domain of `EXP64`. -/
theorem inExpDomain_half {t : F64} (hfin : F64.isFinite t = true) (hlow : -255 * 2 ^ 1074 ≤ F64.scaled t)
    (hhigh : F64.scaled t ≤ 383 * 2 ^ 1074) : F64.inExpDomain (F64.half t) = true := by
  rw [inExpDomain_iff, F64.half]
  split
  · rw [F64.scaled_of_isZero ‹_›]
    exact ⟨hfin, by omega, by omega⟩
  · have htop : F64.isFinite 0x4067F00000000000 = true ∧ F64.scaled 0x4067F00000000000 = 383 * 2 ^ 1073 := by decide +kernel
    have hbottom : F64.isFinite 0xC05FE00000000000 = true ∧ F64.scaled 0xC05FE00000000000 = -255 * 2 ^ 1073 := by
      decide +kernel
    have hscale : (0 : Int) < 2 ^ 1074 := pow_pos two_pos 1074
    have hdouble : ∀ a : Int, a * 2 ^ 1073 * 2 ^ 1075 = a * 2 ^ 1074 * 2 ^ 1074 := by
      intro a
      rw [mul_assoc, mul_assoc, ← pow_add, ← pow_add]
    have hz : (F64.scaled t).natAbs < (2 ^ 54 - 1) * 2 ^ (970 + 1075) := by
      rw [show 970 + 1075 = 971 + 1074 from rfl, pow_add, ← mul_assoc]
      omega
    have hge := F64.le_scaled_rn hz hbottom.1 (by
      rw [hbottom.2, hdouble]; exact mul_le_mul_of_nonneg_right hlow hscale.le)
    have hle := F64.scaled_rn_le hz htop.1 (by rw [htop.2, hdouble]; exact mul_le_mul_of_nonneg_right hhigh hscale.le)
    rw [hbottom.2] at hge
    rw [htop.2] at hle
    exact ⟨(roundingIsToNearestEven _ _ hz).1, hge, hle⟩

/-- The floating logarithm of a word lies in `[-255, 383]`, rounded or not (44_decoder.md R93). -/
theorem decodedFloatLog_range (n : Width) (u : Nat) :
    F64.isFinite (decodedFloatLog biasRomContents n (unpack n u)) = true
      ∧ -255 * 2 ^ 1074 ≤ F64.scaled (decodedFloatLog biasRomContents n (unpack n u))
      ∧ F64.scaled (decodedFloatLog biasRomContents n (unpack n u)) ≤ 383 * 2 ^ 1074 := by
  have hl := decodedLog_range (unpack_C_lt n u)
  have hscale : (0 : Int) < 2 ^ 1074 := pow_pos two_pos 1074
  rw [decodedFloatLog]
  split_ifs
  · exact addInt_range (fractionOf_range (unpack_M_lt n u)) hl
  · obtain ⟨hfin, hval⟩ := ofInt_exact (l := decodedLog biasRomContents (unpack n u)) (by omega)
    rw [hval]
    exact ⟨hfin, mul_le_mul_of_nonneg_right hl.1 hscale.le, mul_le_mul_of_nonneg_right (by omega) hscale.le⟩

theorem inExpDomain_decodedFloatLog (n : Width) (u : Nat) :
    F64.inExpDomain (F64.half (decodedFloatLog biasRomContents n (unpack n u))) = true := by
  obtain ⟨hfin, hlow, hhigh⟩ := decodedFloatLog_range n u
  exact inExpDomain_half hfin hlow hhigh

/-- Settles O49: the range of the floating logarithm, halved. -/
theorem exponentialArgumentStaysInItsDomain : Obligations.ExponentialArgumentStaysInItsDomain := fun n u _ =>
  inExpDomain_decodedFloatLog n u

end Sys2Proof.Machine
end

section
/-! PROOFS. The value of a finite word (44_decoder.md R88, R94): a normal magnitude with the word's sign. -/

namespace Sys2Proof

/-- Setting the sign bit of a value that has none is negation. -/
theorem F64.or_signMask {x : F64} (hx : F64.signbit x = false) : x ||| 0x8000000000000000 = F64.neg x := by
  have hmask : (0x8000000000000000 : F64) = BitVec.twoPow 64 63 := by decide
  have hmsb : x.getLsbD 63 = false := hx
  rw [F64.neg, hmask]
  ext i hi
  by_cases h63 : i = 63
  · subst h63
    simpa [BitVec.getElem_twoPow] using hmsb
  · simp [BitVec.getElem_twoPow, h63]

theorem F64.neg_neg (x : F64) : F64.neg (F64.neg x) = x := by
  rw [F64.neg, F64.neg, BitVec.xor_assoc, BitVec.xor_self, BitVec.xor_zero]

theorem F64.isNormal_neg (x : F64) : F64.isNormal (F64.neg x) = F64.isNormal x := by
  rw [F64.isNormal, F64.isNormal, (F64.neg_fields x).2.1]

end Sys2Proof

namespace Sys2Proof.Machine

/-- The magnitude of a word's value, before the sign is applied (44_decoder.md R88). -/
def decodedMagnitude (exp : F64 → F64) (n : Width) (f : WordFields) : F64 :=
  exp (F64.half (decodedFloatLog biasRomContents n f))

/-- Q1 holds of the magnitude of every word. -/
theorem decodedMagnitude_normal {exp : F64 → F64} (hexp : ExpLimits exp) (n : Width) (u : Nat) :
    F64.signbit (decodedMagnitude exp n (unpack n u)) = false
      ∧ F64.isNormal (decodedMagnitude exp n (unpack n u)) = true :=
  (allowedExp_iff _).1 (hexp.1 _ (inExpDomain_decodedFloatLog n u))

/-- The value of a word is its magnitude, negated when the sign bit is set. -/
theorem decodeFinite_eq {exp : F64 → F64} (hexp : ExpLimits exp) (n : Width) (u : Nat) :
    decodeFinite biasRomContents exp n u = if (unpack n u).S then F64.neg (decodedMagnitude exp n (unpack n u))
      else decodedMagnitude exp n (unpack n u) := by
  rw [← F64.or_signMask (decodedMagnitude_normal hexp n u).1]
  rfl

/-- Settles O50: negation keeps a normal magnitude normal. -/
theorem decodeOfAFiniteWordIsANormalValue : Obligations.DecodeOfAFiniteWordIsANormalValue := by
  intro n bits data s hs hn hzero hnar
  obtain ⟨hsign, hnormal⟩ := decodedMagnitude_normal EXP64_limits n (data.toNat % 2 ^ n.bits)
  have hS : (unpack n (data.toNat % 2 ^ n.bits)).S = data.toNat.testBit (n.bits - 1) := by
    have hn8 := Width.eight_le_bits n
    have hlt : n.bits - 1 < n.bits := by omega
    rw [unpack, Nat.testBit_mod_two_pow, decide_eq_true hlt, Bool.true_and]
  refine ⟨decodeFinite biasRomContents EXP64 n (data.toNat % 2 ^ n.bits), ?_, ?_⟩
  · rw [exec_decode_of_legal hs hn, wordOperand, decodeResult_of_finite _ _ hzero hnar]
    rfl
  · rw [decodeFinite_eq EXP64_limits, ← hS]
    cases (unpack n (data.toNat % 2 ^ n.bits)).S
    · exact ⟨hnormal, hsign⟩
    · rw [if_pos rfl, F64.isNormal_neg, (F64.neg_fields _).1, hsign]
      exact ⟨hnormal, rfl⟩

/-- Two guarded bits agree when the bits agree under the guard. -/
theorem decide_and_congr {p : Prop} [Decidable p] {a b : Bool} (h : p → a = b) : (decide p && a) = (decide p && b) := by
  by_cases hp : p
  · rw [h hp]
  · rw [decide_eq_false hp, Bool.false_and, Bool.false_and]

/-- The sign bit of a word stands in no other field, where the fields overlap too. -/
theorem unpack_flip_sign (n : Width) (u : Nat) :
    unpack n (u ^^^ 2 ^ (n.bits - 1)) = { unpack n u with S := !(unpack n u).S } := by
  have hn := Width.eight_le_bits n
  have hbit : ∀ i, i ≠ n.bits - 1 → (u ^^^ 2 ^ (n.bits - 1)).testBit i = u.testBit i := by
    intro i hi
    rw [Nat.testBit_xor, Nat.testBit_two_pow, decide_eq_false (Ne.symm hi), Bool.xor_false]
  have hS : (unpack n (u ^^^ 2 ^ (n.bits - 1))).S = !(unpack n u).S := by
    rw [unpack, unpack, Nat.testBit_xor, Nat.testBit_two_pow, decide_eq_true rfl, Bool.xor_true]
  have hD : (unpack n (u ^^^ 2 ^ (n.bits - 1))).D = (unpack n u).D := hbit _ (by omega)
  have hr : (unpack n (u ^^^ 2 ^ (n.bits - 1))).r = (unpack n u).r := by
    refine Fin.ext (Nat.eq_of_testBit_eq fun j => ?_)
    rw [unpack_r_testBit, unpack_r_testBit]
    exact decide_and_congr fun hj => hbit _ (by omega)
  have hr8 := (unpack n u).r.isLt
  have hmb : mbits n (unpack n u).r = n.bits - 5 - (unpack n u).r.val := rfl
  have hC : (unpack n (u ^^^ 2 ^ (n.bits - 1))).C = (unpack n u).C := by
    refine Nat.eq_of_testBit_eq fun j => ?_
    rw [unpack_C_testBit, unpack_C_testBit, hr]
    exact decide_and_congr fun hj => hbit _ (by omega)
  have hM : (unpack n (u ^^^ 2 ^ (n.bits - 1))).M = (unpack n u).M := by
    refine Nat.eq_of_testBit_eq fun j => ?_
    rw [unpack_M_testBit, unpack_M_testBit, hr]
    exact decide_and_congr fun hj => hbit _ (by omega)
  exact WordFields.eq_of_fields hS hD hr hC hM

/-- Settles O51: the two words have one magnitude and opposite signs. -/
theorem decodeSignSymmetry : Obligations.DecodeSignSymmetry := by
  intro exp hexp n u _ _ _
  have hmag : decodedMagnitude exp n { unpack n u with S := !(unpack n u).S } = decodedMagnitude exp n (unpack n u) := rfl
  rw [decodeFinite_eq hexp, decodeFinite_eq hexp, unpack_flip_sign, hmag]
  cases (unpack n u).S
  · rfl
  · exact (F64.neg_neg _).symm

end Sys2Proof.Machine
end

section
/-! PROOFS. ENCODE and DECODE together: the composition law (45_properties.md R95) and the fixpoints of the round trip (R96). -/

namespace Sys2Proof.Machine

/-- The fields of a word whose integer logarithm is `l`, as DECODE reads them where they fit. -/
def composedFields (s : Bool) (l : Int) (M : Nat) : WordFields :=
  { S := s
    D := decide (0 ≤ l)
    r := regimeOf l.natAbs
    C := lowBits (characteristic biasRomContents l (regimeOf l.natAbs)) (regimeOf l.natAbs).val
    M := M }

/-- What DECODE reads from the word ENCODE made, where the fields fit. -/
theorem unpack_encodeFinite {ln : F64 → F64} {n : Width} {x : F64}
    (hfit : 5 + (regimeOf (clampedLog (exactLog ln x)).natAbs).val ≤ n.bits) :
    unpack n (encodeFinite biasRomContents ln n x) = composedFields (F64.signbit x) (clampedLog (exactLog ln x))
      (lowBits (mantissa (fractionalLog (exactLog ln x) (clampedLog (exactLog ln x)))
          (mbits n (regimeOf (clampedLog (exactLog ln x)).natAbs)))
        (mbits n (regimeOf (clampedLog (exactLog ln x)).natAbs))) :=
  unpack_pack (p := encodeParts biasRomContents n (F64.signbit x) (exactLog ln x)) hfit

/-- The integer logarithm is read from direction, regime and characteristic alone. -/
theorem decodedLog_composedFields (s : Bool) (l : Int) (M : Nat) :
    decodedLog biasRomContents (composedFields s l M) = decodedLog biasRomContents (composedFields false l 0) := rfl

theorem decodedLog_composed_zero (s : Bool) (M : Nat) : decodedLog biasRomContents (composedFields s 0 M) = 0 := by
  rw [decodedLog_composedFields]
  decide +kernel

/-- At the upper clamp the characteristic field is 0 (43_encoder.md R70). -/
theorem decodedLog_composed_top (s : Bool) (M : Nat) : decodedLog biasRomContents (composedFields s 255 M) = 255 := by
  rw [decodedLog_composedFields]
  decide +kernel

/-- At the lower clamp the characteristic is cut to 127, and the logarithm comes back as -128 (45_properties.md R95). -/
theorem decodedLog_composed_bottom (s : Bool) (M : Nat) : decodedLog biasRomContents (composedFields s (-255) M) = -128 := by
  rw [decodedLog_composedFields]
  decide +kernel

/-- A positive logarithm comes back displaced by `2^r`: the field holds `l - (2^r - 1)` and DECODE adds the bias. -/
theorem decodedLog_composed_pos (s : Bool) {l : Int} (M : Nat) (hpos : 1 ≤ l) (hclamp : l ≤ 254) :
    decodedLog biasRomContents (composedFields s l M) = l + 2 ^ (regimeOf l.natAbs).val := by
  have hr := (regimeOf_bounds (l := l) (by omega) (by omega)).1
  have hC := characteristicField_of_pos (l := l) (by omega) (by omega)
  rw [decodedLog_nonnegative_of_regime_pos (f := composedFields s l M) (decide_eq_true (by omega)) (Fin.pos_iff_ne_zero.2 hr)]
  simp only [composedFields, hC, pow_succ]
  ring

/-- A negative logarithm comes back displaced by one. -/
theorem decodedLog_composed_neg (s : Bool) {l : Int} (M : Nat) (hclamp : -254 ≤ l) (hneg : l ≤ -1) :
    decodedLog biasRomContents (composedFields s l M) = l - 1 := by
  have hC := characteristicField_of_neg (l := l) (by omega) (by omega)
  rw [decodedLog_negative_eq (f := composedFields s l M) (decide_eq_false (by omega)) (lowBits_lt _ _)]
  simp only [composedFields, hC, abs_of_neg (show l < 0 by omega)]
  ring

/-- Settles O52: `unpack_encodeFinite`, the displacements of the logarithm, and `mantissaField_eq`. -/
theorem compositionLaw : Obligations.CompositionLaw := by
  intro ln hln n x hx lExact l r frac f hfit
  obtain ⟨hfin, -, hlt⟩ := exactLog_spec hln hx
  have hf : f = composedFields (F64.signbit x) l (lowBits (mantissa (fractionalLog lExact l) (mbits n r)) (mbits n r)) :=
    unpack_encodeFinite ((fieldsFit_iff n r).1 hfit)
  have hfrac : frac = |F64.scaled lExact| - |l| * 2 ^ 1074 := by
    rw [F64.abs_scaled]
    exact (fractionalLog_exact hfin hlt).2
  have hM : (f.M : Int) = frac % 2 ^ 1074 * 2 ^ mbits n r / 2 ^ 1074 := by
    rw [hf]
    exact mantissaField_eq hfin hlt (mbits_le n r)
  rw [hM]
  rw [hf]
  refine ⟨rfl, rfl, fun hl => ?_, fun hpos hclamp => decodedLog_composed_pos _ _ hpos hclamp, fun hl => ?_,
    fun hclamp hneg => decodedLog_composed_neg _ _ hclamp hneg, fun hl => ?_, fun hlow hhigh => ?_, fun hneg => ?_, fun _ => rfl⟩
  · rw [hl, hfrac, hl, abs_zero, zero_mul, sub_zero]
    exact ⟨decodedLog_composed_zero _ _, rfl⟩
  · rw [hl]
    exact decodedLog_composed_top _ _
  · rw [hl]
    exact decodedLog_composed_bottom _ _
  · rw [Int.emod_eq_of_lt hlow hhigh]
  · obtain ⟨hunclamped, hclamped⟩ := fractionalLogStaysInItsRange ln hln x hx
    have hlow : -(2 ^ 1073) ≤ frac := by
      by_cases hround : l = F64.roundHalfEven lExact
      · exact (hunclamped hround).1
      · exact absurd ((pow_pos two_pos 1073).le.trans (hclamped hround).1) (not_le.2 hneg)
    rw [emod_eq_of_eq_add_mul (x := frac) (c := 2 ^ 1074 + frac) (b := 2 ^ 1074) (-1) (by ring) (by omega) (by omega)]

/-- `1.0` and `-1.0`. -/
def signedOne (s : Bool) : F64 := if s then F64.minusOne else F64.one

theorem finiteNonzero_signedOne (s : Bool) : finiteNonzero (signedOne s) = true := by cases s <;> decide +kernel

/-- The word of `1.0` or `-1.0` at a width: the direction bit, and the sign bit of `-1.0`. -/
def signedOneWord (n : Width) (s : Bool) : Nat := (if s then 2 ^ (n.bits - 1) else 0) + 2 ^ (n.bits - 2)

/-- P2 makes the logarithm 0, and then the word is the direction bit (45_properties.md R96). -/
theorem encodeFinite_signedOne {ln : F64 → F64} (hln : LogLimits ln) (n : Width) (s : Bool) :
    encodeFinite biasRomContents ln n (signedOne s) = signedOneWord n s := by
  have habs : F64.fabs (signedOne s) = F64.one := by cases s <;> decide +kernel
  have hlog : exactLog ln (signedOne s) = F64.zero := by
    rw [exactLog, habs, hln.2]
    decide +kernel
  have hsign : F64.signbit (signedOne s) = s := by cases s <;> decide +kernel
  rw [encodeFinite, hlog, hsign]
  cases n <;> cases s <;> decide +kernel

/-- Q2 makes the exponential 1 on the word of the direction bit. -/
theorem decodeFinite_signedOneWord {exp : F64 → F64} (hexp : ExpLimits exp) (n : Width) (s : Bool) :
    decodeFinite biasRomContents exp n (signedOneWord n s) = signedOne s := by
  have harg : F64.half (decodedFloatLog biasRomContents n (unpack n (signedOneWord n s))) = F64.zero := by
    cases n <;> cases s <;> decide +kernel
  have hS : (unpack n (signedOneWord n s)).S = s := by cases n <;> cases s <;> decide +kernel
  rw [decodeFinite_eq hexp, decodedMagnitude, harg, hexp.2, hS]
  cases s <;> decide +kernel

theorem signedOneWord_finite (n : Width) (s : Bool) : signedOneWord n s < 2 ^ n.bits ∧ signedOneWord n s ≠ 0
    ∧ signedOneWord n s ≠ 2 ^ (n.bits - 1) := by
  cases n <;> cases s <;> decide +kernel

/-- The word of `1.0` is `onePattern` (40_config_resolver.md R49). -/
theorem sext64_signedOneWord (n : Width) : sext64 n (signedOneWord n false) = (cfgRecordOf n).onePattern := by
  cases n <;> decide +kernel

/-- DECODE gives back what ENCODE made of `1.0` and of `-1.0`. -/
theorem decodeResult_encodeResult_signedOne (n : Width) (s : Bool) :
    encodeResult biasRomContents (cfgRecordOf n) LN64 n (signedOne s) = sext64 n (signedOneWord n s)
      ∧ decodeResult biasRomContents (cfgRecordOf n) EXP64 n (wordOperand n (sext64 n (signedOneWord n s)))
        = Response.data (signedOne s) := by
  obtain ⟨hlt, hzero, hnar⟩ := signedOneWord_finite n s
  refine ⟨?_, ?_⟩
  · rw [encodeResult_of_finiteNonzero _ _ _ _ (finiteNonzero_signedOne s), encodeFinite_signedOne LN64_limits]
  · rw [wordOperand_sext64 hlt, decodeResult_of_finite _ _ hzero hnar, decodeFinite_signedOneWord EXP64_limits]

theorem wordOperand_zero (n : Width) : wordOperand n 0 = 0 := Nat.zero_mod _

/-- Settles O53: the special values in band, and `decodeResult_encodeResult_signedOne` for the two ones. -/
theorem roundTripFixpoints : Obligations.RoundTripFixpoints := by
  intro n bits x s hs hn
  have htab : s.cfgTab.read n = cfgRecordOf n := by rw [(s.hardwired_iff.1 hs).2, CfgTable.read_contents]
  refine ⟨_, exec_encode_of_legal hs hn x, fun hzero => ?_, fun hspecial => ?_, fun hone => ?_, fun hminus => ?_⟩
  · rw [exec_decode_of_legal hs hn, encodeResult_of_isZero _ _ _ _ hzero, wordOperand_zero, decodeResult_of_zero]
    rfl
  · rw [exec_decode_of_legal hs hn, encodeResult_of_not_finite _ _ _ _ hspecial, wordOperand_narPattern,
      decodeResult_of_nar]
    rfl
  · obtain ⟨hword, hback⟩ := decodeResult_encodeResult_signedOne n false
    obtain rfl : x = signedOne false := hone
    rw [exec_decode_of_legal hs hn, htab, hword, hback]
    exact ⟨sext64_signedOneWord n, rfl⟩
  · obtain ⟨hword, hback⟩ := decodeResult_encodeResult_signedOne n true
    obtain rfl : x = signedOne true := hminus
    rw [exec_decode_of_legal hs hn, hword, hback]
    rfl

end Sys2Proof.Machine
end
